-- ==== Sys2Proof/Word.lean ====
section
/-! DEFINITION. The words of the machine: bytes, 16-bit words, register and key numbers (spec/00_scope.md R6, R8, R10). -/

namespace Sys2Proof

/-- One 8-bit unsigned value: a memory byte, a V register, a timer (R6 `XLEN`, R10). -/
abbrev Byte := BitVec 8

/-- One 16-bit unsigned value: an instruction word, `pc`, `I`, a saved PC (R6). -/
abbrev Word := BitVec 16

/-- The number of a general register, 0 to 15 (R21: every value is legal). -/
abbrev Reg := Fin 16

/-- The number of a key, 0x0 to 0xF (R31). -/
abbrev Key := Fin 16

/-- `zext_16(v)` (R9): zero extension to 16 bits. -/
abbrev zext16 {w : Nat} (v : BitVec w) : Word := v.setWidth 16

/-- VF, `V[15]`, the flag register (R22). -/
abbrev VF : Reg := 15

end Sys2Proof
end

