-- ==== Sys2Proof/Config.lean ====
section
/-! DEFINITION. What an implementation fixes (spec/00_scope.md R6), and the values the spec leaves open (R7, R180):
the open ones are opaque constants without a body, so that nothing about them can be evaluated or proved. -/

namespace Sys2Proof.Config

/-- `MEM_SIZE` (R6): valid addresses are 0x000 to 0xFFF. -/
abbrev memSize : Nat := 4096

/-- `FONT_LEN` (R6): the font occupies addresses 0x000 to 0x04F. -/
abbrev fontLen : Nat := 80

/-- `PROG_BASE` (R6): load address and reset value of the program counter. -/
abbrev progBase : Nat := 0x200

/-- `PROG_MAX` (R6): the longest program image. -/
abbrev progMax : Nat := 3584

/-- The type of the parameter `SPRITE_EDGE` (R7, P2). -/
inductive SpriteEdge where
  | wrap
  | clip
deriving DecidableEq, Repr, Inhabited

/-- The type of the parameter `SHIFT_SRC` (R7, P3). -/
inductive ShiftSrc where
  | vx
  | vy
deriving DecidableEq, Repr, Inhabited

/-- Open parameter `FONT` (R7, R34, P1): the 80 bytes that `reset` copies to memory.
DESIGN CHOICE, safe (log 1): uninterpreted, so a claim holds for every font. -/
opaque font : Vector Byte fontLen

/-- Open parameter `SPRITE_EDGE` (R7, R143, P2). DESIGN CHOICE, safe (log 2): uninterpreted. -/
opaque spriteEdge : SpriteEdge

/-- Open parameter `SHIFT_SRC` (R7, R118, R120, P3). DESIGN CHOICE, safe (log 3): uninterpreted. -/
opaque shiftSrc : ShiftSrc

/-- The free step input `rnd` (R180, D12): the `k`-th byte supplied to the core from outside.
DESIGN CHOICE, safe (log 4): uninterpreted, indexed by the counter `State.draws`, which is no part of the core. -/
opaque rnd : Nat → Byte

/-- The default of `FONT` that R34 prints (from general knowledge, not in the source). Nothing in the machine uses it:
a claim about displayed glyphs names it as a premise. -/
def fontDefault : Vector Byte fontLen := #v[
  0xF0, 0x90, 0x90, 0x90, 0xF0,  0x20, 0x60, 0x20, 0x20, 0x70,
  0xF0, 0x10, 0xF0, 0x80, 0xF0,  0xF0, 0x10, 0xF0, 0x10, 0xF0,
  0x90, 0x90, 0xF0, 0x10, 0x10,  0xF0, 0x80, 0xF0, 0x10, 0xF0,
  0xF0, 0x80, 0xF0, 0x90, 0xF0,  0xF0, 0x10, 0x20, 0x40, 0x40,
  0xF0, 0x90, 0xF0, 0x90, 0xF0,  0xF0, 0x90, 0xF0, 0x10, 0xF0,
  0xF0, 0x90, 0xF0, 0x90, 0x90,  0xE0, 0x90, 0xE0, 0x90, 0xE0,
  0xF0, 0x80, 0x80, 0x80, 0xF0,  0xE0, 0x90, 0x90, 0x90, 0xE0,
  0xF0, 0x80, 0xF0, 0x80, 0xF0,  0xF0, 0x80, 0xF0, 0x80, 0x80]

/-- The default of `SPRITE_EDGE` (R7). Nothing in the machine uses it. -/
def spriteEdgeDefault : SpriteEdge := .wrap

/-- The default of `SHIFT_SRC` (R7). Nothing in the machine uses it. -/
def shiftSrcDefault : ShiftSrc := .vx

end Sys2Proof.Config
end

