-- ==== Sys2Proof/WellFormed.lean ====
section
/-! DEFINITION. What the types of Syntax do not already check: the row count of a sprite fits its four bits
(spec/30_encoding.md R73, "a row count 0 to 15"), and a program image fits the program region (R85, R192). -/

namespace Sys2Proof

/-- Every value of every register, immediate and ignored field is legal (R73); a row count is at most 15. -/
def Instr.wellFormed : Instr → Bool
  | .drw _ _ n => decide (n ≤ 15)
  | .cls | .ret | .jp _ | .call _ | .seImm _ _ | .sneImm _ _ | .seReg _ _ _ | .ldImm _ _ | .addImm _ _
  | .ldReg _ _ | .or _ _ | .and _ _ | .xor _ _ | .addReg _ _ | .sub _ _ | .shr _ _ | .subn _ _ | .shl _ _
  | .sneReg _ _ _ | .ldI _ | .jpV0 _ | .rnd _ _ | .skp _ | .sknp _ | .ldVxDt _ | .ldVxK _ | .ldDtVx _
  | .ldStVx _ | .addI _ | .ldF _ | .ldB _ | .stRegs _ | .ldRegs _ => true

/-- A program image is at most 3584 bytes (R85, R192). -/
def imageFits (bytes : List Byte) : Bool :=
  decide (bytes.length ≤ Config.progMax)

end Sys2Proof
end

