-- ==== Sys2Proof/Decode.lean ====
section
/-! DEFINITION. Decoding a word (spec/30_encoding.md R70 to R79), total and rejecting by name, and after it the opcode
map R75 as data and the encoder written from it. -/

namespace Sys2Proof

/-- Why bytes are no instruction: the word matches no row of R75 (R80), or fewer than two bytes are left (R70). -/
inductive DecodeError where
  | unknownOpcode (op : Word)
  | truncated
deriving DecidableEq, Repr

/-- Big-endian packing of the two bytes of a word (R54): `hi` is the byte at the lower address. -/
def joinBytes (hi lo : Byte) : Word := hi ++ lo

/-- `op[15:8]`, the byte at the lower address (R8). -/
def hiByte (op : Word) : Byte := op.extractLsb' 8 8

/-- `op[7:0]`, the byte at the higher address (R8). -/
def loByte (op : Word) : Byte := op.extractLsb' 0 8

/-- The register number a nibble names (R71: every value is legal). -/
def regOf (b : BitVec 4) : Reg := ⟨b.toNat, b.isLt⟩

/-- The nibble that names a register. -/
def regBits (r : Reg) : BitVec 4 := BitVec.ofNat 4 r.val

/-- `op[15:12]` (R71). -/
def fieldFamily (op : Word) : BitVec 4 := op.extractLsb' 12 4

/-- `x = op[11:8]` (R71). -/
def fieldX (op : Word) : Reg := regOf (op.extractLsb' 8 4)

/-- `y = op[7:4]` (R71). -/
def fieldY (op : Word) : Reg := regOf (op.extractLsb' 4 4)

/-- `n = op[3:0]` as a bit field (R71): a selector in family 8, ignored in families 5 and 9. -/
def fieldN (op : Word) : BitVec 4 := op.extractLsb' 0 4

/-- `kk = op[7:0]` (R71). -/
def fieldKK (op : Word) : Byte := op.extractLsb' 0 8

/-- `nnn = op[11:0]` (R71). -/
def fieldNNN (op : Word) : BitVec 12 := op.extractLsb' 0 12

/-- Family 0 compares all 16 bits (R74, R76). -/
def decodeFamily0 (op : Word) : Option Instr :=
  if op = 0x00E0#16 then some .cls
  else if op = 0x00EE#16 then some .ret
  else none

/-- Family 8: the selector is `op[3:0]` (R74, R78). -/
def decodeFamily8 (op : Word) : Option Instr :=
  match fieldN op with
  | 0x0#4 => some (.ldReg (fieldX op) (fieldY op))
  | 0x1#4 => some (.or (fieldX op) (fieldY op))
  | 0x2#4 => some (.and (fieldX op) (fieldY op))
  | 0x3#4 => some (.xor (fieldX op) (fieldY op))
  | 0x4#4 => some (.addReg (fieldX op) (fieldY op))
  | 0x5#4 => some (.sub (fieldX op) (fieldY op))
  | 0x6#4 => some (.shr (fieldX op) (fieldY op))
  | 0x7#4 => some (.subn (fieldX op) (fieldY op))
  | 0xE#4 => some (.shl (fieldX op) (fieldY op))
  | _ => none

/-- Family E: the selector is the whole low byte (R74, R79). -/
def decodeFamilyE (op : Word) : Option Instr :=
  match fieldKK op with
  | 0x9E#8 => some (.skp (fieldX op))
  | 0xA1#8 => some (.sknp (fieldX op))
  | _ => none

/-- Family F: the selector is the whole low byte (R74, R79). -/
def decodeFamilyF (op : Word) : Option Instr :=
  match fieldKK op with
  | 0x07#8 => some (.ldVxDt (fieldX op))
  | 0x0A#8 => some (.ldVxK (fieldX op))
  | 0x15#8 => some (.ldDtVx (fieldX op))
  | 0x18#8 => some (.ldStVx (fieldX op))
  | 0x1E#8 => some (.addI (fieldX op))
  | 0x29#8 => some (.ldF (fieldX op))
  | 0x33#8 => some (.ldB (fieldX op))
  | 0x55#8 => some (.stRegs (fieldX op))
  | 0x65#8 => some (.ldRegs (fieldX op))
  | _ => none

/-- The decode procedure of R74: `none` is `UnknownOpcode`. The sixteen families are listed; the last arm is empty. -/
def decodeWord (op : Word) : Option Instr :=
  match fieldFamily op with
  | 0x0#4 => decodeFamily0 op
  | 0x1#4 => some (.jp (fieldNNN op))
  | 0x2#4 => some (.call (fieldNNN op))
  | 0x3#4 => some (.seImm (fieldX op) (fieldKK op))
  | 0x4#4 => some (.sneImm (fieldX op) (fieldKK op))
  | 0x5#4 => some (.seReg (fieldX op) (fieldY op) (fieldN op))
  | 0x6#4 => some (.ldImm (fieldX op) (fieldKK op))
  | 0x7#4 => some (.addImm (fieldX op) (fieldKK op))
  | 0x8#4 => decodeFamily8 op
  | 0x9#4 => some (.sneReg (fieldX op) (fieldY op) (fieldN op))
  | 0xA#4 => some (.ldI (fieldNNN op))
  | 0xB#4 => some (.jpV0 (fieldNNN op))
  | 0xC#4 => some (.rnd (fieldX op) (fieldKK op))
  | 0xD#4 => some (.drw (fieldX op) (fieldY op) (fieldN op).toNat)
  | 0xE#4 => decodeFamilyE op
  | 0xF#4 => decodeFamilyF op
  | _ => none

/-- Decoding a byte stream: one instruction and the bytes after it, or the reason there is none (R70). -/
def decode : List Byte → Except DecodeError (Instr × List Byte)
  | hi :: lo :: rest =>
    match decodeWord (joinBytes hi lo) with
    | some i => .ok (i, rest)
    | none => .error (.unknownOpcode (joinBytes hi lo))
  | [_] => .error .truncated
  | [] => .error .truncated

/-- The word an opcode-table row's bits stand for: bits from `nbits` up are 0, and every instruction is 16 bits (R70). -/
def tableWord (nbits w : Nat) : Word := BitVec.ofNat 16 (w % 2 ^ nbits)

/-- The instruction the decoder reads from an opcode-table word laid out in memory order. -/
def decodeTableWord (nbits w : Nat) : Option Instr :=
  match decode [hiByte (tableWord nbits w), loByte (tableWord nbits w)] with
  | .ok (i, _) => some i
  | .error _ => none

/-- One row of the opcode map R75: a word `op` is the instruction when `op and mask = value`. -/
structure OpcodeRow where
  mnemonic : String
  mask : Word
  value : Word
deriving DecidableEq, Repr

/-- The opcode map (R75): the row of each instruction. -/
def Instr.row : Instr → OpcodeRow
  | .cls => ⟨"CLS", 0xFFFF, 0x00E0⟩
  | .ret => ⟨"RET", 0xFFFF, 0x00EE⟩
  | .jp _ => ⟨"JP", 0xF000, 0x1000⟩
  | .call _ => ⟨"CALL", 0xF000, 0x2000⟩
  | .seImm _ _ => ⟨"SE_IMM", 0xF000, 0x3000⟩
  | .sneImm _ _ => ⟨"SNE_IMM", 0xF000, 0x4000⟩
  | .seReg _ _ _ => ⟨"SE_REG", 0xF000, 0x5000⟩
  | .ldImm _ _ => ⟨"LD_IMM", 0xF000, 0x6000⟩
  | .addImm _ _ => ⟨"ADD_IMM", 0xF000, 0x7000⟩
  | .ldReg _ _ => ⟨"LD_REG", 0xF00F, 0x8000⟩
  | .or _ _ => ⟨"OR", 0xF00F, 0x8001⟩
  | .and _ _ => ⟨"AND", 0xF00F, 0x8002⟩
  | .xor _ _ => ⟨"XOR", 0xF00F, 0x8003⟩
  | .addReg _ _ => ⟨"ADD_REG", 0xF00F, 0x8004⟩
  | .sub _ _ => ⟨"SUB", 0xF00F, 0x8005⟩
  | .shr _ _ => ⟨"SHR", 0xF00F, 0x8006⟩
  | .subn _ _ => ⟨"SUBN", 0xF00F, 0x8007⟩
  | .shl _ _ => ⟨"SHL", 0xF00F, 0x800E⟩
  | .sneReg _ _ _ => ⟨"SNE_REG", 0xF000, 0x9000⟩
  | .ldI _ => ⟨"LD_I", 0xF000, 0xA000⟩
  | .jpV0 _ => ⟨"JP_V0", 0xF000, 0xB000⟩
  | .rnd _ _ => ⟨"RND", 0xF000, 0xC000⟩
  | .drw _ _ _ => ⟨"DRW", 0xF000, 0xD000⟩
  | .skp _ => ⟨"SKP", 0xF0FF, 0xE09E⟩
  | .sknp _ => ⟨"SKNP", 0xF0FF, 0xE0A1⟩
  | .ldVxDt _ => ⟨"LD_VX_DT", 0xF0FF, 0xF007⟩
  | .ldVxK _ => ⟨"LD_VX_K", 0xF0FF, 0xF00A⟩
  | .ldDtVx _ => ⟨"LD_DT_VX", 0xF0FF, 0xF015⟩
  | .ldStVx _ => ⟨"LD_ST_VX", 0xF0FF, 0xF018⟩
  | .addI _ => ⟨"ADD_I", 0xF0FF, 0xF01E⟩
  | .ldF _ => ⟨"LD_F", 0xF0FF, 0xF029⟩
  | .ldB _ => ⟨"LD_B", 0xF0FF, 0xF033⟩
  | .stRegs _ => ⟨"ST_REGS", 0xF0FF, 0xF055⟩
  | .ldRegs _ => ⟨"LD_REGS", 0xF0FF, 0xF065⟩

/-- The 34 rows of R75 in its order, one sample instruction each. -/
def opcodeMap : List OpcodeRow :=
  [Instr.cls.row, Instr.ret.row, (Instr.jp 0).row, (Instr.call 0).row, (Instr.seImm 0 0).row, (Instr.sneImm 0 0).row,
   (Instr.seReg 0 0 0).row, (Instr.ldImm 0 0).row, (Instr.addImm 0 0).row, (Instr.ldReg 0 0).row, (Instr.or 0 0).row,
   (Instr.and 0 0).row, (Instr.xor 0 0).row, (Instr.addReg 0 0).row, (Instr.sub 0 0).row, (Instr.shr 0 0).row,
   (Instr.subn 0 0).row, (Instr.shl 0 0).row, (Instr.sneReg 0 0 0).row, (Instr.ldI 0).row, (Instr.jpV0 0).row,
   (Instr.rnd 0 0).row, (Instr.drw 0 0 0).row]
  ++ [(Instr.skp 0).row, (Instr.sknp 0).row, (Instr.ldVxDt 0).row, (Instr.ldVxK 0).row, (Instr.ldDtVx 0).row,
   (Instr.ldStVx 0).row, (Instr.addI 0).row, (Instr.ldF 0).row, (Instr.ldB 0).row, (Instr.stRegs 0).row,
   (Instr.ldRegs 0).row]

/-- Format NNN of R72. -/
def wordNNN (family : BitVec 4) (nnn : BitVec 12) : Word := family ++ nnn

/-- Format XKK of R72, and XS with its selector as `kk`. -/
def wordXKK (family : BitVec 4) (x : Reg) (kk : Byte) : Word := family ++ (regBits x ++ kk : BitVec 12)

/-- Formats XY, XYS and XYN of R72. -/
def wordXYN (family : BitVec 4) (x y : Reg) (n : BitVec 4) : Word :=
  family ++ (regBits x ++ (regBits y ++ n : BitVec 8) : BitVec 12)

/-- The word of an instruction (R72, R75). -/
def encode : Instr → Word
  | .cls => 0x00E0
  | .ret => 0x00EE
  | .jp nnn => wordNNN 0x1 nnn
  | .call nnn => wordNNN 0x2 nnn
  | .seImm x kk => wordXKK 0x3 x kk
  | .sneImm x kk => wordXKK 0x4 x kk
  | .seReg x y lo => wordXYN 0x5 x y lo
  | .ldImm x kk => wordXKK 0x6 x kk
  | .addImm x kk => wordXKK 0x7 x kk
  | .ldReg x y => wordXYN 0x8 x y 0x0
  | .or x y => wordXYN 0x8 x y 0x1
  | .and x y => wordXYN 0x8 x y 0x2
  | .xor x y => wordXYN 0x8 x y 0x3
  | .addReg x y => wordXYN 0x8 x y 0x4
  | .sub x y => wordXYN 0x8 x y 0x5
  | .shr x y => wordXYN 0x8 x y 0x6
  | .subn x y => wordXYN 0x8 x y 0x7
  | .shl x y => wordXYN 0x8 x y 0xE
  | .sneReg x y lo => wordXYN 0x9 x y lo
  | .ldI nnn => wordNNN 0xA nnn
  | .jpV0 nnn => wordNNN 0xB nnn
  | .rnd x kk => wordXKK 0xC x kk
  | .drw x y n => wordXYN 0xD x y (BitVec.ofNat 4 n)
  | .skp x => wordXKK 0xE x 0x9E
  | .sknp x => wordXKK 0xE x 0xA1
  | .ldVxDt x => wordXKK 0xF x 0x07
  | .ldVxK x => wordXKK 0xF x 0x0A
  | .ldDtVx x => wordXKK 0xF x 0x15
  | .ldStVx x => wordXKK 0xF x 0x18
  | .addI x => wordXKK 0xF x 0x1E
  | .ldF x => wordXKK 0xF x 0x29
  | .ldB x => wordXKK 0xF x 0x33
  | .stRegs x => wordXKK 0xF x 0x55
  | .ldRegs x => wordXKK 0xF x 0x65

end Sys2Proof
end

