-- ==== Sys2Proof/Machine/Memory.lean ====
section
/-! DEFINITION. Memory (spec/20_memory.md R50 to R52): 4096 bytes, held as the list of the cells that differ from
their reset contents, addresses rising, so that equal memories are equal lists. -/

namespace Sys2Proof.Machine

/-- The cells whose contents differ from `Memory.unlisted`, by rising address. -/
abbrev Memory := List Host.Cell

/-- What an unlisted address reads as: the reset contents (R33, R37), the font at 0x000 to 0x04F and 0 above. -/
def Memory.unlisted (a : Nat) : Byte :=
  if h : a < Config.fontLen then Config.font[a] else 0

/-- The byte at address `a`: "a read returns the byte last written there" (R52). -/
def Memory.read : Memory → Nat → Byte
  | [], a => Memory.unlisted a
  | (b, v) :: rest, a => if a = b then v else Memory.read rest a

/-- The memory after the byte `v` is written at address `a` (R52). -/
def Memory.write : Memory → Nat → Byte → Memory
  | [], a, v => if v = Memory.unlisted a then [] else [(a, v)]
  | (b, w) :: rest, a, v =>
    if a < b then
      if v = Memory.unlisted a then (b, w) :: rest else (a, v) :: (b, w) :: rest
    else if a = b then
      if v = Memory.unlisted a then rest else (a, v) :: rest
    else (b, w) :: Memory.write rest a v

/-- The `n` bytes from address `a` up, lowest first (R55). -/
def Memory.readBytes (m : Memory) (a : Nat) : Nat → List Byte
  | 0 => []
  | n + 1 => m.read a :: m.readBytes (a + 1) n

/-- The memory after the bytes are written from address `a` up, lowest first (R55). -/
def Memory.writeBytes (m : Memory) (a : Nat) : List Byte → Memory
  | [] => m
  | v :: rest => Memory.writeBytes (m.write a v) (a + 1) rest

/-- The canonical form: rising addresses, all inside the 4096 bytes, and no cell that its address's reset contents
already give. -/
abbrev Memory.wf (m : Memory) : Prop :=
  m.Pairwise (fun c d => c.1 < d.1) ∧ ∀ c ∈ m, c.1 < Config.memSize ∧ c.2 ≠ Memory.unlisted c.1

end Sys2Proof.Machine
end

