-- ==== Sys2Proof/Machine/State.lean ====
section
/-! DEFINITION. The state of the core (spec/10_state.md R20 to R37), the reasons a step can stop, and the state after
reset. -/

namespace Sys2Proof.Machine

/-- The framebuffer: 32 rows of 64 one-bit pixels (R30); row `y`, then column `x`. -/
abbrev Frame := Vector (Vector Bool 64) 32

/-- The state of the core (R20): these eleven items, under the spec's names, and nothing else (R36). -/
structure CoreState where
  /-- 4096 bytes (R33), in the canonical form of `Memory.wf`. -/
  mem : Memory
  /-- The general registers V0 to VF (R21); `V[15]` is also the flag (R22). -/
  V : Vector Byte 16
  /-- The index register, all 16 bits (R23). -/
  I : Word
  /-- The address of the next instruction to fetch (R24). -/
  pc : Word
  /-- The return stack (R26). -/
  Stack : Vector Word 16
  /-- The number of saved PCs, the 5-bit counter whose value is 0 to 16 (R27). -/
  SP : Fin 17
  /-- The delay timer (R28). -/
  DT : Byte
  /-- The sound timer (R29). -/
  ST : Byte
  /-- The framebuffer (R30). -/
  FB : Frame
  /-- The keypad latch, true for down (R31). -/
  KEY : Vector Bool 16
  /-- The dirty flag (R32). -/
  DIRTY : Bool
deriving DecidableEq, Repr

/-- What the host's `step : State → …` runs on: the core, and beside it, outside the core, how many bytes of the free
input `rnd` (R35, R180) have been supplied. The spec's `step(rnd)` takes the input as an argument and runs on `CoreState`
alone (`coreStep`); the host's has no such argument, so the place in the input stands here. DESIGN CHOICE (log 4). -/
structure State extends CoreState where
  /-- The number of input bytes used so far: the model's own, no part of the core. -/
  draws : Nat
deriving DecidableEq, Repr

/-- The faults of R160, every status other than `Ok`. All are the spec's, and each leaves the state unchanged (R91,
R165); all are safe. -/
inductive Fault where
  /-- Raised by `step` when the fetched word is no instruction (R161). Safe. -/
  | unknownOpcode
  /-- Raised by `2nnn` with 16 saved PCs (R162). Safe. -/
  | stackOverflow
  /-- Raised by `00EE` with no saved PC (R163). Safe. -/
  | stackUnderflow
  /-- Raised by a fetch, `Dxyn`, `Fx33`, `Fx55` or `Fx65` that would pass address 0xFFF (R164). Safe. -/
  | memoryOutOfRange
  /-- Raised by `loadProgram` alone, for an image longer than 3584 bytes (R165); by no step. Safe. -/
  | programTooLarge
deriving DecidableEq, Repr

/-- The numeric codes of R160. -/
def Fault.code : Fault → Nat
  | .unknownOpcode => 1
  | .stackOverflow => 2
  | .stackUnderflow => 3
  | .memoryOutOfRange => 4
  | .programTooLarge => 5

/-- Why the model has no answer. -/
inductive Refusal where
  /-- Raised by an arm of `exec` whose instruction has no meaning yet; no arm is such. Safe. -/
  | notModelled (mnemonic : String)
deriving DecidableEq, Repr

/-- The outcome of an instruction. -/
abbrev Result := Host.Outcome State Fault Refusal

/-- The state of the core after `reset()` (R37, R190). Memory lists nothing: `Memory.unlisted` is its reset contents. -/
def CoreState.reset : CoreState where
  mem := []
  V := Vector.replicate 16 0
  I := 0
  pc := BitVec.ofNat 16 Config.progBase
  Stack := Vector.replicate 16 0
  SP := 0
  DT := 0
  ST := 0
  FB := Vector.replicate 32 (Vector.replicate 64 false)
  KEY := Vector.replicate 16 false
  DIRTY := false

/-- The core after reset, with no input used yet (a DESIGN CHOICE, log 5). -/
def State.reset : State where
  toCoreState := CoreState.reset
  draws := 0

end Sys2Proof.Machine
end

