-- ==== Sys2Proof/Machine/Ops.lean ====
section
/-! DEFINITION. The named operations over registers, stack and memory that every meaning is built from: the primitives of
spec/00_scope.md R9, the range check of spec/20_memory.md R52, the PC advances of spec/40_step_control_flow.md R92. -/

namespace Sys2Proof.Machine

namespace CoreState

/-! Updates of one field. -/

def setMem (s : CoreState) (v : Memory) : CoreState := { s with mem := v }
def setV (s : CoreState) (v : Vector Byte 16) : CoreState := { s with V := v }
def setI (s : CoreState) (v : Word) : CoreState := { s with I := v }
def setPc (s : CoreState) (v : Word) : CoreState := { s with pc := v }
def setStack (s : CoreState) (v : Vector Word 16) : CoreState := { s with Stack := v }
def setSP (s : CoreState) (v : Fin 17) : CoreState := { s with SP := v }
def setDT (s : CoreState) (v : Byte) : CoreState := { s with DT := v }
def setST (s : CoreState) (v : Byte) : CoreState := { s with ST := v }
def setFB (s : CoreState) (v : Frame) : CoreState := { s with FB := v }
def setKEY (s : CoreState) (v : Vector Bool 16) : CoreState := { s with KEY := v }
def setDIRTY (s : CoreState) (v : Bool) : CoreState := { s with DIRTY := v }

/-! General registers (R9, R21). -/

/-- `V[i]`. -/
def readV (s : CoreState) (i : Reg) : Byte := s.V[i]

/-- `V[i] <- v`. -/
def writeV (s : CoreState) (i : Reg) (v : Byte) : CoreState := s.setV (s.V.set i v)

/-- `V[x] <- v`, then `V[15] <- flag`: when `x` is VF the flag wins (R123). -/
def writeFlagged (s : CoreState) (x : Reg) (v flag : Byte) : CoreState := (s.writeV x v).writeV VF flag

/-- `V[0]` to `V[n-1]`, lowest first (R55, R135). -/
def firstRegs (s : CoreState) (n : Nat) : List Byte := s.V.toList.take n

end CoreState

/-- The registers after the bytes are written to `V[i]`, `V[i+1]`, and so on (R55, R136). -/
def fillRegs (V : Vector Byte 16) (i : Nat) : List Byte → Vector Byte 16
  | [] => V
  | b :: rest => fillRegs (V.setIfInBounds i b) (i + 1) rest

namespace CoreState

/-- `V[0]`, `V[1]`, ... <- the bytes in order. -/
def writeFirstRegs (s : CoreState) (bytes : List Byte) : CoreState := s.setV (fillRegs s.V 0 bytes)

/-! The program counter (R92). -/

/-- The default advance `pc <- (pc0 + 2) mod 65536`. -/
def advance (s : CoreState) : CoreState := s.setPc (s.pc + 2)

/-- A skip: `pc <- (pc0 + 4) mod 65536` when the condition holds, else `pc <- (pc0 + 2) mod 65536`. -/
def skipIf (s : CoreState) (c : Bool) : CoreState := s.setPc (s.pc + if c then 4 else 2)

end CoreState

/-! Faults (R91, R168). -/

/-- `raise <Fault>`: the step ends with that status. Nothing is saved, no mode changes, control goes nowhere; the caller
keeps the state it had (R91, R168). This is the machine's one way of taking an exception, and there is no return from it
(R169). -/
def raise (f : Fault) : Result := .fault f

/-! Memory (R52, R53, R59). Addresses are unbounded integers. -/

/-- Whether the `len` bytes from address `a` up all lie at or below 0xFFF; no bytes always do. -/
abbrev inRange (a len : Nat) : Prop := len = 0 ∨ a + len ≤ Config.memSize

namespace CoreState

/-- `MemRead(addr, 1)` (R52). -/
def memRead (s : CoreState) (a : Nat) : Except Fault Byte :=
  if inRange a 1 then .ok (s.mem.read a) else .error .memoryOutOfRange

/-- `MemRead(addr, 2)`, big-endian (R52, R54): used only by instruction fetch. -/
def memRead16 (s : CoreState) (a : Nat) : Except Fault Word :=
  if inRange a 2 then .ok (joinBytes (s.mem.read a) (s.mem.read (a + 1))) else .error .memoryOutOfRange

/-- `MemWrite(addr, 1, v)` (R52). -/
def memWrite (s : CoreState) (a : Nat) (v : Byte) : Except Fault CoreState :=
  if inRange a 1 then .ok (s.setMem (s.mem.write a v)) else .error .memoryOutOfRange

/-- `MemRead` of `len` bytes from address `a` up, the whole range checked first (R59). -/
def loadBytes (s : CoreState) (a len : Nat) : Except Fault (List Byte) :=
  if inRange a len then .ok (s.mem.readBytes a len) else .error .memoryOutOfRange

/-- `MemWrite` of the bytes from address `a` up, the whole range checked before the first write (R59). -/
def storeBytes (s : CoreState) (a : Nat) (bytes : List Byte) : Except Fault CoreState :=
  if inRange a bytes.length then .ok (s.setMem (s.mem.writeBytes a bytes)) else .error .memoryOutOfRange

/-! The return stack (R26, R27, R94, R96). -/

/-- `Stack[SP] <- v; SP <- SP + 1`, or `StackOverflow` when `SP = 16`. -/
def push (s : CoreState) (v : Word) : Except Fault CoreState :=
  if h : s.SP.val < 16 then
    .ok ((s.setStack (s.Stack.set s.SP.val v)).setSP ⟨s.SP.val + 1, by omega⟩)
  else .error .stackOverflow

/-- `SP <- SP - 1`, then `Stack[SP]`; or `StackUnderflow` when `SP = 0`. The entry stays as it was (R26). -/
def pop (s : CoreState) : Except Fault (Word × CoreState) :=
  if h : 0 < s.SP.val then
    .ok (s.Stack[s.SP.val - 1]'(by omega), s.setSP ⟨s.SP.val - 1, by omega⟩)
  else .error .stackUnderflow

/-! Fetch and decode: phases 1 to 3 of R90. -/

/-- `op <- MemRead(pc0, 2)`. -/
def fetch (s : CoreState) : Except Fault Word := s.memRead16 s.pc.toNat

/-- The instruction the next step executes, or the fault of its fetch or decode phase, in that order (R166). -/
def nextInstr (s : CoreState) : Except Fault Instr :=
  match s.fetch with
  | .error f => .error f
  | .ok op =>
    match decodeWord op with
    | some i => .ok i
    | none => .error .unknownOpcode

/-! The keypad latch (R31, R153). -/

/-- `KEY[k]`. -/
def keyDown (s : CoreState) (k : Key) : Bool := s.KEY[k]

/-- The least `k` with `KEY[k] = 1`: "scan all 16 keys in ascending index order" (R153). -/
def firstKeyDown (s : CoreState) : Option Key :=
  [0, 1, 2, 3, 4, 5, 6, 7, 8, 9, 10, 11, 12, 13, 14, 15].find? s.keyDown

end CoreState

/-! The core and its input (R35, R180). -/

namespace State

/-- The core in a new state, its input as it was. -/
def withCore (s : State) (c : CoreState) : State := { s with toCoreState := c }

/-- The input `rnd` of the step about to be taken: a free byte. -/
def input (s : State) : Byte := Config.rnd s.draws

/-- The input byte is used up, and the next one is another. -/
def nextInput (s : State) : State := { s with draws := s.draws + 1 }

end State

end Sys2Proof.Machine
end

