-- ==== Sys2Proof/Machine/Operands.lean ====
section
/-! DEFINITION. The computed operand forms (spec/30_encoding.md R73, spec/42_index_memory_ops.md R134): every other
operand is a field of the word or a register as it stands. -/

namespace Sys2Proof.Machine

/-- The target of `Bnnn`: `(zext_16(nnn) + zext_16(V[0])) mod 65536` (R101). -/
def offsetTarget (nnn : BitVec 12) (v0 : Byte) : Word := zext16 nnn + zext16 v0

/-- The sum of `Fx1E`: `(I + zext_16(V[x])) mod 65536` (R131). -/
def indexSum (i : Word) (v : Byte) : Word := i + zext16 v

/-- The glyph address of `Fx29`: `zext_16(V[x]) * 5`, the whole byte, not masked to a digit (R132). -/
def glyphAddress (v : Byte) : Word := zext16 v * 5

/-- The key a register names in `Ex9E` and `ExA1`: its low four bits (R156). -/
def keyIndex (v : Byte) : Key := ⟨v.toNat % 16, Nat.mod_lt _ (by decide)⟩

/-- The operand of `8xy6` and `8xyE`: `V[x]` or `V[y]` as `SHIFT_SRC` says (R118, R120). Equal registers are the
operand whichever it says, so that the parameter is asked for only where it matters (`shiftOperand_eq`). -/
def shiftOperand (src : Config.ShiftSrc) (vx vy : Byte) : Byte :=
  if vx = vy then vx
  else match src with
    | .vx => vx
    | .vy => vy

/-- The three bytes of `Fx33`: hundreds, tens, ones, one digit a byte (R133). -/
def bcdDigits (v : Byte) : List Byte :=
  [BitVec.ofNat 8 (v.toNat / 100), BitVec.ofNat 8 (v.toNat / 10 % 10), BitVec.ofNat 8 (v.toNat % 10)]

/-- The base of the data addresses `I + k` (R134), an unbounded integer (R53). -/
def CoreState.base (s : CoreState) : Nat := s.I.toNat

end Sys2Proof.Machine
end

