-- ==== Sys2Proof/Machine/ControlFlow.lean ====
section
/-! DEFINITION. The control-flow instructions (spec/40_step_control_flow.md R94 to R101). In a meaning `s.pc` is `pc0`. -/

namespace Sys2Proof.Machine

/-- `00EE` (R94): pop, then `pc <- popped + 2`. -/
def execRet (s : State) : Result :=
  match s.pop with
  | .error f => raise f
  | .ok (saved, t) => .next (s.withCore (t.setPc (saved + 2)))

/-- `1nnn` (R95). -/
def execJp (nnn : BitVec 12) (s : State) : Result := .next (s.withCore (s.setPc (zext16 nnn)))

/-- `2nnn` (R96): push the address of this instruction, then jump. -/
def execCall (nnn : BitVec 12) (s : State) : Result :=
  match s.push s.pc with
  | .error f => raise f
  | .ok t => .next (s.withCore (t.setPc (zext16 nnn)))

/-- `3xkk` (R97). -/
def execSeImm (x : Reg) (kk : Byte) (s : State) : Result := .next (s.withCore (s.skipIf (s.readV x == kk)))

/-- `4xkk` (R98). -/
def execSneImm (x : Reg) (kk : Byte) (s : State) : Result := .next (s.withCore (s.skipIf (s.readV x != kk)))

/-- `5xy0` (R99): the low nibble is ignored (R77). -/
def execSeReg (x y : Reg) (_lo : BitVec 4) (s : State) : Result := .next (s.withCore (s.skipIf (s.readV x == s.readV y)))

/-- `9xy0` (R100): the low nibble is ignored (R77). -/
def execSneReg (x y : Reg) (_lo : BitVec 4) (s : State) : Result := .next (s.withCore (s.skipIf (s.readV x != s.readV y)))

/-- `Bnnn` (R101): the register is always V0. -/
def execJpV0 (nnn : BitVec 12) (s : State) : Result := .next (s.withCore (s.setPc (offsetTarget nnn (s.readV 0))))

end Sys2Proof.Machine
end

