-- ==== Sys2Proof/Machine/Flags.lean ====
section
/-! DEFINITION. Every value written to VF as a flag (spec/10_state.md R22): always the 8-bit value 0 or 1. The
comparisons are made on exact integers. -/

namespace Sys2Proof.Machine

/-- A flag as the byte VF holds. -/
def flagByte (b : Bool) : Byte := if b then 1 else 0

/-- The carry of `8xy4`: the 9-bit sum `a + b` carried out of bit 7 (R116). -/
def carryOut (a b : Byte) : Bool := decide (255 < a.toNat + b.toNat)

/-- The not-borrow of `a - b`: 1 exactly when `a >= b` (R117; R119 with the operands exchanged). -/
def notBorrow (a b : Byte) : Bool := decide (b.toNat ≤ a.toNat)

/-- The bit a right shift drops, bit 0 (R118). -/
def droppedRight (v : Byte) : Bool := v.getLsbD 0

/-- The bit a left shift drops, bit 7 (R120). -/
def droppedLeft (v : Byte) : Bool := v.getLsbD 7

end Sys2Proof.Machine
end

