-- ==== Sys2Proof/Machine/Display.lean ====
section
/-! DEFINITION. The display instructions (spec/43_display.md R140 to R144). -/

namespace Sys2Proof.Machine

/-- `FB[y][x]` (R30). -/
def Frame.pixel (fb : Frame) (x : Fin 64) (y : Fin 32) : Bool := fb[y][x]

/-- `FB[y][x] <- FB[y][x] xor 1` (R142). -/
def Frame.toggle (fb : Frame) (x : Fin 64) (y : Fin 32) : Frame := fb.set y (fb[y].set x (!fb.pixel x y))

/-- The framebuffer with every pixel 0 (R140). -/
def Frame.blank : Frame := Vector.replicate 32 (Vector.replicate 64 false)

/-- The edge rule `Target(X, Y)` (R143) under one value of `SPRITE_EDGE`. A position on the screen is its own target
under both values, so that the parameter is asked for only past an edge (`target_eq`). -/
def target (edge : Config.SpriteEdge) (X Y : Nat) : Option (Fin 64 × Fin 32) :=
  if h : X < 64 ∧ Y < 32 then some (⟨X, h.1⟩, ⟨Y, h.2⟩)
  else match edge with
    | .wrap => some (⟨X % 64, Nat.mod_lt _ (by decide)⟩, ⟨Y % 32, Nat.mod_lt _ (by decide)⟩)
    | .clip => none

/-- A drawing in progress (R142): the framebuffer so far and whether a set pixel has been cleared. -/
structure Drawing where
  frame : Frame
  collision : Bool
deriving DecidableEq, Repr

/-- A set sprite bit at `(X, Y)`: toggle its target, if any, and note a collision (R142). -/
def Drawing.plot (d : Drawing) (edge : Config.SpriteEdge) (X Y : Nat) : Drawing :=
  match target edge X Y with
  | none => d
  | some (px, py) => ⟨d.frame.toggle px py, d.collision || d.frame.pixel px py⟩

/-- Column `c` of the sprite byte `b`, bit 7 leftmost: `b[7 - c]` (R141). -/
def spriteBit (b : Byte) (c : Nat) : Bool := b.getLsbD (7 - c)

/-- One sprite row: the eight columns of `b` from `(X, Y)` rightwards (R142). -/
def Drawing.drawRow (d : Drawing) (edge : Config.SpriteEdge) (b : Byte) (X Y : Nat) : Drawing :=
  [0, 1, 2, 3, 4, 5, 6, 7].foldl (fun d c => if spriteBit b c then d.plot edge (X + c) Y else d) d

/-- The sprite rows from `(X, Y)` downwards, top row first (R142). -/
def Drawing.drawRows (d : Drawing) (edge : Config.SpriteEdge) (X Y : Nat) : List Byte → Drawing
  | [] => d
  | b :: rest => Drawing.drawRows (d.drawRow edge b X Y) edge X (Y + 1) rest

/-- `00E0` (R140). -/
def execCls (s : State) : Result := .next (s.withCore ((s.setFB Frame.blank).setDIRTY true).advance)

/-- The effect of `Dxyn` once its sprite bytes are read (R142), under one value of `SPRITE_EDGE`: the coordinates are
read before VF is written. -/
def drawSprite (edge : Config.SpriteEdge) (x y : Reg) (sprite : List Byte) (s : CoreState) : CoreState :=
  let d := Drawing.drawRows ⟨s.FB, false⟩ edge (s.readV x).toNat (s.readV y).toNat sprite
  (((s.setFB d.frame).writeV VF (flagByte d.collision)).setDIRTY true).advance

/-- `Dxyn` (R142): with `n = 0` no byte is read and nothing can be out of range (R144). -/
def execDrw (x y : Reg) (n : Nat) (s : State) : Result :=
  match s.loadBytes s.base n with
  | .error f => raise f
  | .ok sprite => .next (s.withCore (drawSprite Config.spriteEdge x y sprite s.toCoreState))

end Sys2Proof.Machine
end

