-- ==== Sys2Proof/Machine/IndexMemory.lean ====
section
/-! DEFINITION. The index-register and memory instructions (spec/42_index_memory_ops.md R130 to R136). `I` is never
changed by an access (R134). -/

namespace Sys2Proof.Machine

/-- `Annn` (R130). -/
def execLdI (nnn : BitVec 12) (s : State) : Result := .next (s.withCore (s.setI (zext16 nnn)).advance)

/-- `Fx1E` (R131): no flag. -/
def execAddI (x : Reg) (s : State) : Result := .next (s.withCore (s.setI (indexSum s.I (s.readV x))).advance)

/-- `Fx29` (R132). -/
def execLdF (x : Reg) (s : State) : Result := .next (s.withCore (s.setI (glyphAddress (s.readV x))).advance)

/-- `Fx33` (R133): three digits to `Mem[I..I+2]`. -/
def execLdB (x : Reg) (s : State) : Result :=
  match s.storeBytes s.base (bcdDigits (s.readV x)) with
  | .error f => raise f
  | .ok t => .next (s.withCore t.advance)

/-- `Fx55` (R135): `V[0..x]` to `Mem[I..I+x]`. -/
def execStRegs (x : Reg) (s : State) : Result :=
  match s.storeBytes s.base (s.firstRegs (x.val + 1)) with
  | .error f => raise f
  | .ok t => .next (s.withCore t.advance)

/-- `Fx65` (R136): `V[0..x]` from `Mem[I..I+x]`. -/
def execLdRegs (x : Reg) (s : State) : Result :=
  match s.loadBytes s.base (x.val + 1) with
  | .error f => raise f
  | .ok bytes => .next (s.withCore (s.writeFirstRegs bytes).advance)

end Sys2Proof.Machine
end

