-- ==== Sys2Proof/Machine/KeypadTimer.lean ====
section
/-! DEFINITION. The keypad and timer instructions (spec/44_keypad_timer_ops.md R150 to R156). -/

namespace Sys2Proof.Machine

/-- `Ex9E` (R150). -/
def execSkp (x : Reg) (s : State) : Result := .next (s.withCore (s.skipIf (s.keyDown (keyIndex (s.readV x)))))

/-- `ExA1` (R151). -/
def execSknp (x : Reg) (s : State) : Result := .next (s.withCore (s.skipIf (!s.keyDown (keyIndex (s.readV x)))))

/-- `Fx07` (R152). -/
def execLdVxDt (x : Reg) (s : State) : Result := .next (s.withCore (s.writeV x s.DT).advance)

/-- `Fx0A` (R153): with no key down the step is `Ok` and nothing changes, `pc` included. -/
def execLdVxK (x : Reg) (s : State) : Result :=
  match s.firstKeyDown with
  | some k => .next (s.withCore (s.writeV x (BitVec.ofNat 8 k.val)).advance)
  | none => .next s

/-- `Fx15` (R154). -/
def execLdDtVx (x : Reg) (s : State) : Result := .next (s.withCore (s.setDT (s.readV x)).advance)

/-- `Fx18` (R155). -/
def execLdStVx (x : Reg) (s : State) : Result := .next (s.withCore (s.setST (s.readV x)).advance)

end Sys2Proof.Machine
end

