-- ==== Sys2Proof/Machine/RegisterAlu.lean ====
section
/-! DEFINITION. The register, ALU and random instructions (spec/41_register_alu.md R110 to R123). -/

namespace Sys2Proof.Machine

/-- `6xkk` (R110). -/
def execLdImm (x : Reg) (kk : Byte) (s : State) : Result := .next (s.withCore (s.writeV x kk).advance)

/-- `7xkk` (R111): no flag. -/
def execAddImm (x : Reg) (kk : Byte) (s : State) : Result := .next (s.withCore (s.writeV x (s.readV x + kk)).advance)

/-- `8xy0` (R112). -/
def execLdReg (x y : Reg) (s : State) : Result := .next (s.withCore (s.writeV x (s.readV y)).advance)

/-- `8xy1` (R113): VF is not written. -/
def execOr (x y : Reg) (s : State) : Result := .next (s.withCore (s.writeV x (s.readV x ||| s.readV y)).advance)

/-- `8xy2` (R114): VF is not written. -/
def execAnd (x y : Reg) (s : State) : Result := .next (s.withCore (s.writeV x (s.readV x &&& s.readV y)).advance)

/-- `8xy3` (R115): VF is not written. -/
def execXor (x y : Reg) (s : State) : Result := .next (s.withCore (s.writeV x (s.readV x ^^^ s.readV y)).advance)

/-- `8xy4` (R116). -/
def execAddReg (x y : Reg) (s : State) : Result :=
  .next (s.withCore (s.writeFlagged x (s.readV x + s.readV y) (flagByte (carryOut (s.readV x) (s.readV y)))).advance)

/-- `8xy5` (R117). -/
def execSub (x y : Reg) (s : State) : Result :=
  .next (s.withCore (s.writeFlagged x (s.readV x - s.readV y) (flagByte (notBorrow (s.readV x) (s.readV y)))).advance)

/-- `8xy7` (R119). -/
def execSubn (x y : Reg) (s : State) : Result :=
  .next (s.withCore (s.writeFlagged x (s.readV y - s.readV x) (flagByte (notBorrow (s.readV y) (s.readV x)))).advance)

/-- `8xy6` under one value of `SHIFT_SRC` (R118). -/
def shiftRight (src : Config.ShiftSrc) (x y : Reg) (s : CoreState) : CoreState :=
  let v := shiftOperand src (s.readV x) (s.readV y)
  (s.writeFlagged x (v >>> 1) (flagByte (droppedRight v))).advance

/-- `8xy6` (R118). -/
def execShr (x y : Reg) (s : State) : Result := .next (s.withCore (shiftRight Config.shiftSrc x y s.toCoreState))

/-- `8xyE` under one value of `SHIFT_SRC` (R120). -/
def shiftLeft (src : Config.ShiftSrc) (x y : Reg) (s : CoreState) : CoreState :=
  let v := shiftOperand src (s.readV x) (s.readV y)
  (s.writeFlagged x (v <<< 1) (flagByte (droppedLeft v))).advance

/-- `8xyE` (R120). -/
def execShl (x y : Reg) (s : State) : Result := .next (s.withCore (shiftLeft Config.shiftSrc x y s.toCoreState))

/-- `Cxkk` for one value of the step input `rnd` (R121). -/
def randomMasked (rnd : Byte) (x : Reg) (kk : Byte) (s : CoreState) : CoreState := (s.writeV x (rnd &&& kk)).advance

/-- `Cxkk` (R121): `rnd` is the free input of this step, and no later step has it (R180, log 4). -/
def execRnd (x : Reg) (kk : Byte) (s : State) : Result :=
  .next (s.withCore (randomMasked s.input x kk s.toCoreState)).nextInput

end Sys2Proof.Machine
end

