-- ==== Sys2Proof/Machine/Step.lean ====
section
/-! DEFINITION. The step cycle (spec/40_step_control_flow.md R90). -/

namespace Sys2Proof.Machine

/-- `step` (R90), its input `rnd` the one beside the core (R180): fetch, decode, execute exactly one instruction, or the
first fault of those phases (R166). The state a fault leaves is the state before the step (R91), which the caller still
has. -/
def step (s : State) : Host.Outcome State Fault Refusal :=
  match s.nextInstr with
  | .error f => raise f
  | .ok i => exec i s

/-- The state with the opcode-table word `w` stored where `step` fetches. Where no word can be fetched at `pc`
(`pc >= 0xFFF`, R164) the fetch also needs a `pc` in range, and the program base is taken (log 7). -/
def State.withFetchWord (s : State) (nbits w : Nat) : State :=
  let t := if inRange s.pc.toNat 2 then s.toCoreState else s.setPc (BitVec.ofNat 16 Config.progBase)
  s.withCore (t.setMem (t.mem.writeBytes t.pc.toNat [hiByte (tableWord nbits w), loByte (tableWord nbits w)]))

end Sys2Proof.Machine
end

