-- ==== Sys2Proof/Machine/Operations.lean ====
section
/-! DEFINITION. The operations of the core (spec/00_scope.md R5) as functions of its eleven items (spec/10_state.md R20):
`step(rnd)` with the input as an argument and its outputs (spec/40_step_control_flow.md R90, R93), the other operations
(spec/60_exceptions.md R171 to R176, spec/70_reset_and_hazards.md R190 to R192), and schedules of all of them. Every
operation is atomic, and the order between actors is free (log 6). -/

namespace Sys2Proof.Machine

/-! The timer actor. -/

/-- One count down, clamped at 0 (R171). -/
def countDown (v : Byte) : Byte := if 0 < v.toNat then v - 1 else v

/-- `tick()` (R171): both timers in one operation. -/
def opTick (s : CoreState) : CoreState := (s.setDT (countDown s.DT)).setST (countDown s.ST)

/-! The input actor: the index is four bits wide (R175). -/

/-- `setKey(index)` (R175). -/
def opSetKey (k : Key) (s : CoreState) : CoreState := s.setKEY (s.KEY.set k true)

/-- `clearKey(index)` (R175). -/
def opClearKey (k : Key) (s : CoreState) : CoreState := s.setKEY (s.KEY.set k false)

/-! The Display Sink and the caller's views: reading has no side effect (R176). -/

/-- `clearDirty()` (R176). -/
def opClearDirty (s : CoreState) : CoreState := s.setDIRTY false

/-- The framebuffer view as a flat sequence, row-major, index `y * 64 + x` (R176). -/
def fbView (s : CoreState) : List Bool := (s.FB.toList.map Vector.toList).flatten

/-- The dirty view (R176). -/
def dirtyView (s : CoreState) : Bool := s.DIRTY

/-- The sound view (R173). -/
def soundView (s : CoreState) : Byte := s.ST

/-! The caller. -/

/-- `reset()` (R190): the state after it does not depend on the state before it (R191). -/
def opReset (_s : CoreState) : CoreState := CoreState.reset

/-- `loadProgram(bytes)` (R192): too long an image is rejected before any memory is touched (R165). -/
def opLoadProgram (bytes : List Byte) (s : CoreState) : Except Fault CoreState :=
  if imageFits bytes then .ok (s.setMem (s.mem.writeBytes Config.progBase bytes))
  else .error .programTooLarge

/-! The stepping actor's outputs (R93). -/

/-- The statuses of R160: `Ok` or a fault. -/
inductive Status where
  | ok
  | fault (f : Fault)
deriving DecidableEq, Repr

/-- The numeric codes of R160. -/
def Status.code : Status → Nat
  | .ok => 0
  | .fault f => f.code

/-- What an operation returns to its caller (R93): `fbChanged` and `sound` are outputs of `step`; for every other
operation they are the value 0 and the sound view, a DESIGN CHOICE (log 9). -/
structure Report where
  status : Status
  fbChanged : Bool
  sound : Byte
deriving DecidableEq, Repr

/-- The instructions whose `Ok` step has `fb_changed = 1`: `00E0` and `Dxyn` (R93). -/
def changesFrame : Instr → Bool
  | .cls | .drw _ _ _ => true
  | .ret | .jp _ | .call _ | .seImm _ _ | .sneImm _ _ | .seReg _ _ _ | .ldImm _ _ | .addImm _ _
  | .ldReg _ _ | .or _ _ | .and _ _ | .xor _ _ | .addReg _ _ | .sub _ _ | .shr _ _ | .subn _ _ | .shl _ _
  | .sneReg _ _ _ | .ldI _ | .jpV0 _ | .rnd _ _ | .skp _ | .sknp _ | .ldVxDt _ | .ldVxK _ | .ldDtVx _
  | .ldStVx _ | .addI _ | .ldF _ | .ldB _ | .stRegs _ | .ldRegs _ => false

/-- Whether the step about to be taken executes `00E0` or `Dxyn`. -/
def frameStep (s : CoreState) : Bool :=
  match s.nextInstr with
  | .ok i => changesFrame i
  | .error _ => false

/-- An instruction executed with a given input: `Cxkk` uses it, every other instruction ignores it (R180). -/
def execWith (rnd : Byte) (i : Instr) (s : State) : Result :=
  match i with
  | .rnd x kk => .next (s.withCore (randomMasked rnd x kk s.toCoreState))
  | other => exec other s

/-- What an outcome says of the core. -/
def coreOutcome : Result → Host.Outcome CoreState Fault Refusal
  | .next t => .next t.toCoreState
  | .fault f => .fault f
  | .refused r => .refused r

/-- `step(rnd)` (R90), a function of the eleven items and the input alone. No place in any other input matters to it, so
that the one it is given here stands for all (`step_eq_coreStep`). -/
def coreStep (rnd : Byte) (c : CoreState) : Host.Outcome CoreState Fault Refusal :=
  match c.nextInstr with
  | .error f => .fault f
  | .ok i => coreOutcome (execWith rnd i ⟨c, 0⟩)

/-- `step(rnd)` with its outputs (R93): a faulting step leaves the state as it was, with `fb_changed` 0 and `sound` the
value of `ST` (R91). `none` only where the model refuses the instruction, which it never does. -/
def opStep (rnd : Byte) (s : CoreState) : Option (CoreState × Report) :=
  match coreStep rnd s with
  | .next t => some (t, ⟨.ok, frameStep s, t.ST⟩)
  | .fault f => some (s, ⟨.fault f, false, s.ST⟩)
  | .refused _ => none

/-! All operations in one type, and schedules of them (R5, R174). -/

/-- The operations of R5 that change state. -/
inductive Operation where
  | reset
  | loadProgram (bytes : List Byte)
  | step (rnd : Byte)
  | tick
  | setKey (k : Key)
  | clearKey (k : Key)
  | clearDirty
deriving DecidableEq, Repr

/-- The report of an operation that cannot fault. -/
def quietReport (t : CoreState) : CoreState × Report := (t, ⟨.ok, false, t.ST⟩)

/-- One operation: the state it leaves and what it returns. -/
def perform (op : Operation) (s : CoreState) : Option (CoreState × Report) :=
  match op with
  | .reset => some (quietReport (opReset s))
  | .loadProgram bytes =>
    match opLoadProgram bytes s with
    | .ok t => some (quietReport t)
    | .error f => some (s, ⟨.fault f, false, s.ST⟩)
  | .step rnd => opStep rnd s
  | .tick => some (quietReport (opTick s))
  | .setKey k => some (quietReport (opSetKey k s))
  | .clearKey k => some (quietReport (opClearKey k s))
  | .clearDirty => some (quietReport (opClearDirty s))

/-- A schedule: operations of all actors in one total order (R5, R60). It goes on past a fault, as a caller may (R169). -/
def runSchedule : List Operation → CoreState → Option CoreState
  | [], s => some s
  | op :: rest, s =>
    match perform op s with
    | some (t, _) => runSchedule rest t
    | none => none

end Sys2Proof.Machine
end

