-- ==== Sys2Proof/Safety.lean ====
section
/-! DEFINITION. The terms claims are stated in: what two states have in common, what each instruction may write, the
invariant of every reachable state, and what a safe run and its end are. Nothing in the machine uses this file. -/

namespace Sys2Proof.Machine

/-! Frames. -/

/-- The eleven items of the core's state (spec/10_state.md R20). -/
inductive Field where
  | mem | V | I | pc | Stack | SP | DT | ST | FB | KEY | DIRTY
deriving DecidableEq, Repr

/-- Two states of the core agree on an item, read as the machine reads it: every byte of memory, every register, every entry, every
pixel, every key. -/
def agreeOn (s t : CoreState) : Field → Prop
  | .mem => ∀ a : Nat, t.mem.read a = s.mem.read a
  | .V => ∀ r : Reg, t.readV r = s.readV r
  | .I => t.I = s.I
  | .pc => t.pc = s.pc
  | .Stack => ∀ i : Fin 16, t.Stack[i] = s.Stack[i]
  | .SP => t.SP = s.SP
  | .DT => t.DT = s.DT
  | .ST => t.ST = s.ST
  | .FB => ∀ (x : Fin 64) (y : Fin 32), t.FB.pixel x y = s.FB.pixel x y
  | .KEY => ∀ k : Key, t.keyDown k = s.keyDown k
  | .DIRTY => t.DIRTY = s.DIRTY

/-- Every item outside the list is the same in both states of the core. -/
def coreUnchanged (except : List Field) (s t : CoreState) : Prop :=
  ∀ f : Field, f ∉ except → agreeOn s t f

/-- Every item outside the list is the same in both states, and no input byte has been used. -/
def Unchanged (except : List Field) (s t : State) : Prop :=
  coreUnchanged except s.toCoreState t.toCoreState ∧ t.draws = s.draws

/-- Every register outside the list is the same in both states. -/
def regsKept (written : List Reg) (s t : State) : Prop :=
  ∀ r : Reg, r ∉ written → t.readV r = s.readV r

/-- Every byte outside the `len` bytes from address `a` up reads the same in both states. -/
def memKeptOutside (a len : Nat) (s t : State) : Prop :=
  ∀ b : Nat, b < a ∨ a + len ≤ b → t.mem.read b = s.mem.read b

/-- The items an instruction may write: the "written by" column of R20 and the access matrix R38, `pc` for all. -/
def mayWrite : Instr → List Field
  | .cls => [.pc, .FB, .DIRTY]
  | .drw _ _ _ => [.pc, .V, .FB, .DIRTY]
  | .ret => [.pc, .SP]
  | .call _ => [.pc, .Stack, .SP]
  | .jp _ | .jpV0 _ | .seImm _ _ | .sneImm _ _ | .seReg _ _ _ | .sneReg _ _ _ | .skp _ | .sknp _ => [.pc]
  | .ldImm _ _ | .addImm _ _ | .ldReg _ _ | .or _ _ | .and _ _ | .xor _ _ | .addReg _ _ | .sub _ _ | .shr _ _
  | .subn _ _ | .shl _ _ | .rnd _ _ | .ldVxDt _ | .ldVxK _ | .ldRegs _ => [.pc, .V]
  | .ldI _ | .addI _ | .ldF _ => [.pc, .I]
  | .ldDtVx _ => [.pc, .DT]
  | .ldStVx _ => [.pc, .ST]
  | .ldB _ | .stRegs _ => [.pc, .mem]

/-- How many input bytes an instruction uses: `Cxkk` one, every other none (R180). -/
def inputsUsed : Instr → Nat
  | .rnd _ _ => 1
  | .cls | .ret | .jp _ | .call _ | .seImm _ _ | .sneImm _ _ | .seReg _ _ _ | .ldImm _ _ | .addImm _ _
  | .ldReg _ _ | .or _ _ | .and _ _ | .xor _ _ | .addReg _ _ | .sub _ _ | .shr _ _ | .subn _ _ | .shl _ _
  | .sneReg _ _ _ | .ldI _ | .jpV0 _ | .drw _ _ _ | .skp _ | .sknp _ | .ldVxDt _ | .ldVxK _ | .ldDtVx _
  | .ldStVx _ | .addI _ | .ldF _ | .ldB _ | .stRegs _ | .ldRegs _ => 0

/-- The registers an instruction writes as its destination (the column `V[x]` of R38; `V[0..x]` for `Fx65`). -/
def destinations : Instr → List Reg
  | .ldImm x _ | .addImm x _ | .ldReg x _ | .or x _ | .and x _ | .xor x _ | .addReg x _ | .sub x _ | .shr x _
  | .subn x _ | .shl x _ | .rnd x _ | .ldVxDt x | .ldVxK x => [x]
  | .ldRegs x => (List.finRange 16).filter (fun r => r.val ≤ x.val)
  | .cls | .ret | .jp _ | .call _ | .seImm _ _ | .sneImm _ _ | .seReg _ _ _ | .sneReg _ _ _ | .ldI _ | .jpV0 _
  | .drw _ _ _ | .skp _ | .sknp _ | .ldDtVx _ | .ldStVx _ | .addI _ | .ldF _ | .ldB _ | .stRegs _ => []

/-- The six instructions that write VF as a side effect (R22). -/
def writesFlag : Instr → Bool
  | .addReg _ _ | .sub _ _ | .shr _ _ | .subn _ _ | .shl _ _ | .drw _ _ _ => true
  | .cls | .ret | .jp _ | .call _ | .seImm _ _ | .sneImm _ _ | .seReg _ _ _ | .ldImm _ _ | .addImm _ _
  | .ldReg _ _ | .or _ _ | .and _ _ | .xor _ _ | .sneReg _ _ _ | .ldI _ | .jpV0 _ | .rnd _ _ | .skp _ | .sknp _
  | .ldVxDt _ | .ldVxK _ | .ldDtVx _ | .ldStVx _ | .addI _ | .ldF _ | .ldB _ | .stRegs _ | .ldRegs _ => false

/-- The instructions whose rule says otherwise than the default advance (R92): jumps, call, return, skips and `Fx0A`. -/
def ownPc : Instr → Bool
  | .ret | .jp _ | .call _ | .seImm _ _ | .sneImm _ _ | .seReg _ _ _ | .sneReg _ _ _ | .jpV0 _ | .skp _ | .sknp _
  | .ldVxK _ => true
  | .cls | .ldImm _ _ | .addImm _ _ | .ldReg _ _ | .or _ _ | .and _ _ | .xor _ _ | .addReg _ _ | .sub _ _ | .shr _ _
  | .subn _ _ | .shl _ _ | .ldI _ | .rnd _ _ | .drw _ _ _ | .ldVxDt _ | .ldDtVx _ | .ldStVx _ | .addI _ | .ldF _
  | .ldB _ | .stRegs _ | .ldRegs _ => false

/-! Sprites. -/

/-- Some set bit of the `n`-row sprite at `Mem[I]`, drawn at (`V[x]`, `V[y]`), lands on the pixel (R141 to R143), in
the spec's own formulas for the two values of `SPRITE_EDGE`. -/
def spriteCovers (edge : Config.SpriteEdge) (s : State) (x y : Reg) (n : Nat) (px : Fin 64) (py : Fin 32) : Prop :=
  ∃ r c : Nat, r < n ∧ c < 8 ∧ (s.mem.read (s.base + r)).getLsbD (7 - c) = true ∧
    match edge with
    | .wrap => ((s.readV x).toNat + c) % 64 = px.val ∧ ((s.readV y).toNat + r) % 32 = py.val
    | .clip => (s.readV x).toNat + c = px.val ∧ (s.readV y).toNat + r = py.val

/-! Reset. -/

/-- The table of R37: what reset leaves in every piece of the spec's state. -/
def IsResetState (s : CoreState) : Prop :=
  (∀ a (h : a < Config.fontLen), s.mem.read a = Config.font[a]) ∧
  (∀ a, Config.fontLen ≤ a → a < Config.memSize → s.mem.read a = 0) ∧
  (∀ r : Reg, s.readV r = 0) ∧ s.I = 0 ∧ s.pc = 0x0200 ∧ s.SP = 0 ∧ (∀ i : Fin 16, s.Stack[i] = 0) ∧
  s.DT = 0 ∧ s.ST = 0 ∧ (∀ (x : Fin 64) (y : Fin 32), s.FB.pixel x y = false) ∧
  (∀ k : Key, s.keyDown k = false) ∧ s.DIRTY = false

/-! The invariant and reachable states. -/

/-- What holds of every reachable state: memory is canonical, `pc` is at most 0x10FE, and every live entry of the return
stack is at most 0x0FFE, as the address of any `2nnn` that was fetched is (R25, R26). -/
structure CoreState.Inv (s : CoreState) : Prop where
  memory : s.mem.wf
  counter : s.pc.toNat ≤ 0x10FE
  liveEntries : ∀ i : Fin 16, i.val < s.SP.val → s.Stack[i].toNat ≤ 0x0FFE

/-- The states that some schedule of operations reaches from the state after reset (R5, R193), with any inputs. -/
def Reachable (s : CoreState) : Prop := ∃ ops : List Operation, runSchedule ops CoreState.reset = some s

/-- A schedule in which nothing but a tick writes `DT`: no `reset`, and no step that executes `Fx15` (R28). -/
def noDelayWrite : List Operation → CoreState → Prop
  | [], _ => True
  | op :: rest, s =>
    op ≠ .reset ∧ (∀ rnd x, op = .step rnd → s.nextInstr ≠ .ok (.ldDtVx x)) ∧
    ∀ t r, perform op s = some (t, r) → noDelayWrite rest t

/-! Observation. -/

/-- The two states agree on all that an instruction can read: everything but `ST`, `DIRTY` (R29, R32) and the dead
entries of the return stack at index `SP` and above (R26). -/
def sameToProgram (s t : CoreState) : Prop :=
  t.mem = s.mem ∧ t.V = s.V ∧ t.I = s.I ∧ t.pc = s.pc ∧ t.SP = s.SP ∧ t.DT = s.DT ∧ t.FB = s.FB ∧ t.KEY = s.KEY ∧
  ∀ i : Fin 16, i.val < s.SP.val → t.Stack[i] = s.Stack[i]

/-! Runs. -/

/-- A safe run of `n` steps of the stepping actor alone: no step faults or is refused (R202 (a)). -/
def safeFor (n : Nat) (s : State) : Prop := ∃ t, Host.Core.run core n s = .next t

/-- The end of a run: the machine is at a self-jump (R202). -/
def atSelfJump (s : State) : Prop :=
  s.pc.toNat ≤ 0xFFE ∧
  (s.mem.read s.pc.toNat).toNat * 256 + (s.mem.read (s.pc.toNat + 1)).toNat = 0x1000 + s.pc.toNat

end Sys2Proof.Machine
end

