-- ==== Sys2Proof/Certificates/Slice0/Obligations.lean ====
section
/-! DEFINITION. The statements for the provers. Each docstring names the rule of spec/ it formalises; where a clause rests
on a decision of spec/92_eei_decisions.md, an inference the spec marks as derived, or a choice of the model, it says so. -/

open Sys2Proof Sys2Proof.Machine

/-! ## Encoding -/

/-- Decoding the word of a well-formed instruction gives it back, as a word and as the two bytes in front of any others
(R70, R72, R75). That the low nibble of families 5 and 9 is an operand is the model's (log 8). -/
def Obligations.DecodeOfEncodeIsIdentity : Prop :=
  ∀ (i : Instr) (rest : List Byte), i.wellFormed = true →
    decodeWord (encode i) = some i ∧
    decode (hiByte (encode i) :: loByte (encode i) :: rest) = .ok (i, rest)

/-- Every word the decoder accepts is the encoding of what it decodes to, which is well-formed (R71 to R75). For a word of
family 5 or 9 with a low nibble other than 0 it rests on the model's choice to keep that ignored nibble as an operand
(log 8); the spec's own encoding has 0 there (R77). -/
def Obligations.EncodeOfDecodeIsIdentity : Prop :=
  ∀ (op : Word) (i : Instr), decodeWord op = some i → i.wellFormed = true ∧ encode i = op

/-- R75: "a word `op` is the instruction when `op and mask = match`", for each of the 34 rows, and "no word matches two
rows". -/
def Obligations.DecoderFollowsTheOpcodeMap : Prop :=
  (∀ (op : Word) (i : Instr), decodeWord op = some i → op &&& i.row.mask = i.row.value ∧ i.row ∈ opcodeMap) ∧
  (∀ (op : Word) (row : OpcodeRow), row ∈ opcodeMap → op &&& row.mask = row.value →
    ∃ i, decodeWord op = some i ∧ i.row = row) ∧
  (∀ (op : Word) (row row' : OpcodeRow), row ∈ opcodeMap → row' ∈ opcodeMap →
    op &&& row.mask = row.value → op &&& row'.mask = row'.value → row = row')

/-- The illegal words are those of R76, R78 and R79 and no others (R80). Rests on D6 (how many bits are compared) and D7
(families 5 and 9 have no illegal word). -/
def Obligations.UnknownWordsAreTheIllegalOnes : Prop :=
  ∀ op : Word, decodeWord op = none ↔
    (op.toNat / 4096 = 0x0 ∧ op.toNat ≠ 0x00E0 ∧ op.toNat ≠ 0x00EE) ∨
    (op.toNat / 4096 = 0x8 ∧ op.toNat % 16 ∈ [0x8, 0x9, 0xA, 0xB, 0xC, 0xD, 0xF]) ∨
    (op.toNat / 4096 = 0xE ∧ op.toNat % 256 ∉ [0x9E, 0xA1]) ∨
    (op.toNat / 4096 = 0xF ∧ op.toNat % 256 ∉ [0x07, 0x0A, 0x15, 0x18, 0x1E, 0x29, 0x33, 0x55, 0x65])

/-- Words of spec/95_test_vectors.md and of the rules' examples decode to the instructions they stand for. That the last
word is legal rests on D7, and that it decodes with its ignored nibble as an operand is the model's choice (log 8). -/
def Obligations.WordsOfTheSpecDecode : Prop :=
  decodeWord 0x00E0 = some .cls ∧ decodeWord 0x00EE = some .ret ∧ decodeWord 0x1234 = some (.jp 0x234) ∧
  decodeWord 0x220A = some (.call 0x20A) ∧ decodeWord 0x6A05 = some (.ldImm 0xA 0x05) ∧
  decodeWord 0x8014 = some (.addReg 0 1) ∧ decodeWord 0x801E = some (.shl 0 1) ∧
  decodeWord 0xA20E = some (.ldI 0x20E) ∧ decodeWord 0xC30F = some (.rnd 3 0x0F) ∧
  decodeWord 0xD7A5 = some (.drw 7 0xA 5) ∧ decodeWord 0xE2A1 = some (.sknp 2) ∧
  decodeWord 0xF518 = some (.ldStVx 5) ∧ decodeWord 0xF265 = some (.ldRegs 2) ∧
  decodeWord 0x0000 = none ∧ decodeWord 0x5121 = some (.seReg 1 2 1)

/-! ## The step -/

/-- R54: `op = Mem[pc0] * 256 + Mem[pc0+1]`, `Mem[pc0]` is `op[15:8]` and `Mem[pc0+1]` is `op[7:0]`, wherever both bytes
are in memory. -/
def Obligations.FetchIsBigEndian : Prop :=
  ∀ s : State, s.pc.toNat ≤ 0xFFE → ∃ op : Word, s.fetch = .ok op ∧
    op.toNat = (s.mem.read s.pc.toNat).toNat * 256 + (s.mem.read (s.pc.toNat + 1)).toNat ∧
    hiByte op = s.mem.read s.pc.toNat ∧ loByte op = s.mem.read (s.pc.toNat + 1)

/-- A fetch whose second byte is above 0xFFF faults, never wraps (R52, R56, R164 (a)). Rests on D3. -/
def Obligations.FetchPastTheEndFaults : Prop :=
  ∀ s : State, 0xFFF ≤ s.pc.toNat → step s = .fault .memoryOutOfRange

/-- R161: a fetched word that matches no instruction of the opcode map ends the step with `UnknownOpcode`, and no state
is changed. -/
def Obligations.UnmatchedWordIsUnknownOpcode : Prop :=
  ∀ (s : State) (op : Word), s.fetch = .ok op → (∀ row ∈ opcodeMap, op &&& row.mask ≠ row.value) →
    step s = .fault .unknownOpcode ∧
    ∀ rnd, ∃ r, opStep rnd s.toCoreState = some (s.toCoreState, r) ∧ r.status = .fault .unknownOpcode

/-- R90: when the two bytes at `pc` decode to an instruction, the step is that instruction's execution in the state
before the step, with nothing added around it; and a step completes in no other way. What it does to the core is the
`step(rnd)` of the eleven items alone, `rnd` the free input beside them: the random source has no state inside the core
(R20, R35, R36, R180; log 4). -/
def Obligations.StepRunsTheDecodedInstruction : Prop :=
  (∀ (s : State) (i : Instr), s.pc.toNat ≤ 0xFFE →
    decode [s.mem.read s.pc.toNat, s.mem.read (s.pc.toNat + 1)] = .ok (i, []) → step s = exec i s) ∧
  (∀ s t : State, step s = .next t → s.pc.toNat ≤ 0xFFE ∧
    ∃ i, decode [s.mem.read s.pc.toNat, s.mem.read (s.pc.toNat + 1)] = .ok (i, []) ∧ exec i s = .next t) ∧
  (∀ s : State, coreOutcome (step s) = coreStep s.input s.toCoreState)

/-- Placing a word where the step fetches makes the next step run it, and changes nothing else; where `pc` is out of
range the program base is taken (the model's choice, log 7). -/
def Obligations.PlacedWordRunsNext : Prop :=
  ∀ (s : State) (w : Nat) (i : Instr), s.mem.wf → decodeTableWord 16 w = some i →
    step (s.withFetchWord 16 w) = exec i (s.withFetchWord 16 w) ∧
    Unchanged [.mem, .pc] s (s.withFetchWord 16 w) ∧
    memKeptOutside (s.withFetchWord 16 w).pc.toNat 2 s (s.withFetchWord 16 w) ∧
    (s.pc.toNat ≤ 0xFFE → (s.withFetchWord 16 w).pc = s.pc) ∧
    (0xFFF ≤ s.pc.toNat → (s.withFetchWord 16 w).pc = 0x200)

/-- The execute-phase faults are exactly those of R162, R163, R164 (b) to (d), and no two compete (R166). Rests on D1,
D2, D3, D23. -/
def Obligations.ExecuteFaultsExactly : Prop :=
  ∀ (i : Instr) (s : State) (f : Fault), exec i s = .fault f ↔
    (f = .stackOverflow ∧ s.SP = 16 ∧ ∃ nnn, i = .call nnn) ∨
    (f = .stackUnderflow ∧ s.SP = 0 ∧ i = .ret) ∨
    (f = .memoryOutOfRange ∧
      ((∃ x y n, i = .drw x y n ∧ 0 < n ∧ 0xFFF < s.I.toNat + n - 1) ∨
       (∃ x, i = .ldB x ∧ 0xFFF < s.I.toNat + 2) ∨
       (∃ x, (i = .stRegs x ∨ i = .ldRegs x) ∧ 0xFFF < s.I.toNat + x.val)))

/-- Every step answers a next state or one of the four step faults of R160, never a refusal and never the load fault
(R90, R93, R165). -/
def Obligations.StepAnswersStateOrStepFault : Prop :=
  ∀ s : State, (∃ t, step s = .next t) ∨
    ∃ f, step s = .fault f ∧ f ∈ [Fault.unknownOpcode, .stackOverflow, .stackUnderflow, .memoryOutOfRange]

/-- R92: "Unless its rule says otherwise an instruction ends with `pc <- (pc0 + 2) mod 65536`"; the rules that say
otherwise are the jumps, call, return, skips and `Fx0A`. -/
def Obligations.DefaultAdvanceIsTwo : Prop :=
  ∀ (i : Instr) (s t : State), exec i s = .next t → ownPc i = false →
    t.pc.toNat = (s.pc.toNat + 2) % 65536

/-- Each instruction writes only the state its line of the access matrix gives it (R20 "written by", R38, which the spec
marks as derived); every other item, read as the machine reads it, is unchanged. `Cxkk` uses one input byte, no other
instruction uses any (R180; the count is the model's, log 4). -/
def Obligations.InstructionsWriteOnlyTheAccessMatrix : Prop :=
  ∀ (i : Instr) (s t : State), exec i s = .next t →
    coreUnchanged (mayWrite i) s.toCoreState t.toCoreState ∧ t.draws = s.draws + inputsUsed i

/-- R21, R22: a register changes only as a named destination; VF alone also as the side effect of six instructions,
whatever their destination (the case of destination VF rests on D10), and then it holds 0 or 1. -/
def Obligations.RegistersChangeOnlyAsDestinationOrFlag : Prop :=
  ∀ (i : Instr) (s t : State), exec i s = .next t →
    (∀ r : Reg, r ≠ VF → r ∉ destinations i → t.readV r = s.readV r) ∧
    (writesFlag i = false → VF ∉ destinations i → t.readV VF = s.readV VF) ∧
    (writesFlag i = true → t.readV VF = 0 ∨ t.readV VF = 1)

/-- The outputs of `step(rnd)` (R93), for every input: status `Ok` with code 0, `fb_changed` exactly for `00E0` and
`Dxyn`, `sound` the `ST` after the step; a faulting step leaves the state, with `fb_changed` 0 (R91); the codes of R160.
Rests on D13 (the codes), D20, D23, D25. -/
def Obligations.StepOutputs : Prop :=
  (∀ (rnd : Byte) (s t : CoreState), coreStep rnd s = .next t →
    ∃ r, opStep rnd s = some (t, r) ∧ r.status = .ok ∧ r.status.code = 0 ∧ r.sound = t.ST ∧
      (r.fbChanged = true ↔ s.nextInstr = .ok .cls ∨ ∃ x y n, s.nextInstr = .ok (.drw x y n))) ∧
  (∀ (rnd : Byte) (s : CoreState) (f : Fault), coreStep rnd s = .fault f →
    opStep rnd s = some (s, ⟨.fault f, false, s.ST⟩)) ∧
  [Fault.unknownOpcode, .stackOverflow, .stackUnderflow, .memoryOutOfRange, .programTooLarge].map Fault.code
    = [1, 2, 3, 4, 5]

/-! ## Reset and invariants -/

/-- R190: `reset()` "zeroes all state, sets PC=0x200, SP=0, I=0, and copies the fixed 80-byte font table into
Memory[0..80)", whatever the state before; and the state the model starts from is that state. -/
def Obligations.ResetLeavesTheResetState : Prop :=
  IsResetState State.reset.toCoreState ∧ ∀ s : CoreState, IsResetState (opReset s)

/-- R191, which the spec marks as derived: the state after `reset` does not depend on the state before it, and a second
`reset` changes nothing. -/
def Obligations.ResetForgetsTheStateBefore : Prop :=
  ∀ s u : CoreState, opReset s = opReset u ∧ opReset (opReset s) = opReset s

/-- The invariant holds after reset. It is the model's: canonical memory, and the bounds of R25 and R26. -/
def Obligations.InvariantHoldsAtReset : Prop := State.reset.Inv

/-- Every step keeps the invariant: memory canonical, `pc` at most 0x10FE, every live stack entry at most 0xFFE (R25, which
the spec marks as derived). -/
def Obligations.StepKeepsInvariant : Prop :=
  ∀ s t : State, s.Inv → step s = .next t → t.Inv

/-- Every operation of R5 keeps the invariant, a step with every input. -/
def Obligations.OperationsKeepInvariant : Prop :=
  ∀ (op : Operation) (s t : CoreState) (r : Report), s.Inv → perform op s = some (t, r) → t.Inv

/-- R25, which the spec marks as derived: after `reset` and any sequence of operations with any inputs `pc` is at most
0x10FE, so no advance wraps, and each live stack entry is at most 0xFFE. -/
def Obligations.ReachableProgramCounterBound : Prop :=
  ∀ s : CoreState, Reachable s →
    s.pc.toNat ≤ 0x10FE ∧ s.pc.toNat + 4 < 65536 ∧ ∀ i : Fin 16, i.val < s.SP.val → s.Stack[i].toNat ≤ 0xFFE

/-! ## Control flow -/

/-- R95: `pc <- zext_16(nnn)`, nothing else changes, no fault. -/
def Obligations.JumpSetsProgramCounter : Prop :=
  ∀ (nnn : BitVec 12) (s : State), ∃ t, exec (.jp nnn) s = .next t ∧ t.pc.toNat = nnn.toNat ∧ Unchanged [.pc] s t

/-- R101: `pc <- (zext_16(nnn) + zext_16(V[0])) mod 65536`, a sum that never wraps, nothing else changes, no fault. -/
def Obligations.JumpWithOffsetAddsVZero : Prop :=
  ∀ (nnn : BitVec 12) (s : State), ∃ t, exec (.jpV0 nnn) s = .next t ∧
    t.pc.toNat = nnn.toNat + (s.readV 0).toNat ∧ Unchanged [.pc] s t

/-- R96: with fewer than 16 saved PCs, `Stack[SP] <- pc0`, `SP <- SP + 1`, `pc <- nnn`, and nothing else changes; with 16
the step is `StackOverflow`. Rests on D1 (the fault) and D15 (the counter). -/
def Obligations.CallPushesItsOwnAddress : Prop :=
  ∀ (nnn : BitVec 12) (s : State),
    (s.SP.val < 16 → ∃ t, exec (.call nnn) s = .next t ∧ t.pc.toNat = nnn.toNat ∧ t.SP.val = s.SP.val + 1 ∧
      (∀ i : Fin 16, t.Stack[i] = if i.val = s.SP.val then s.pc else s.Stack[i]) ∧
      Unchanged [.pc, .SP, .Stack] s t) ∧
    (s.SP = 16 → exec (.call nnn) s = .fault .stackOverflow)

/-- R94: with a saved PC, `SP <- SP - 1`, `pc <- Stack[SP] + 2`, the entry and everything else unchanged; with none the
step is `StackUnderflow`. Rests on D2 (the fault) and D15 (the counter). -/
def Obligations.ReturnPopsAndAddsTwo : Prop :=
  ∀ s : State,
    (∀ i : Fin 16, s.SP.val = i.val + 1 → ∃ t, exec .ret s = .next t ∧
      t.pc.toNat = (s.Stack[i].toNat + 2) % 65536 ∧ t.SP.val = i.val ∧ Unchanged [.pc, .SP] s t) ∧
    (s.SP = 0 → exec .ret s = .fault .stackUnderflow)

/-- R102, which the spec marks as derived: a `2nnn` whose target holds `00EE` is followed by a step back to the
instruction after the call; only the dead stack entry remembers it. -/
def Obligations.CallThenReturnComesBack : Prop :=
  ∀ (s : State) (nnn : BitVec 12), s.nextInstr = .ok (.call nnn) → s.SP.val < 16 → nnn.toNat ≤ 0xFFE →
    s.mem.read nnn.toNat = 0x00 → s.mem.read (nnn.toNat + 1) = 0xEE →
    ∃ t u, step s = .next t ∧ step t = .next u ∧ u.pc.toNat = (s.pc.toNat + 2) % 65536 ∧
      (∀ i : Fin 16, i.val ≠ s.SP.val → u.Stack[i] = s.Stack[i]) ∧ Unchanged [.pc, .Stack] s u

/-- R97, R98: skip by four when `V[x] = kk`, respectively `V[x] ≠ kk`, else advance by two; nothing else changes, no
fault. -/
def Obligations.ImmediateSkips : Prop :=
  ∀ (x : Reg) (kk : Byte) (s : State),
    (∃ t, exec (.seImm x kk) s = .next t ∧
      t.pc.toNat = (s.pc.toNat + if (s.readV x).toNat = kk.toNat then 4 else 2) % 65536 ∧ Unchanged [.pc] s t) ∧
    (∃ t, exec (.sneImm x kk) s = .next t ∧
      t.pc.toNat = (s.pc.toNat + if (s.readV x).toNat = kk.toNat then 2 else 4) % 65536 ∧ Unchanged [.pc] s t)

/-- R99, R100: the same for two registers, whatever the ignored low nibble is (that clause rests on D7). -/
def Obligations.RegisterSkips : Prop :=
  ∀ (x y : Reg) (lo : BitVec 4) (s : State),
    (∃ t, exec (.seReg x y lo) s = .next t ∧
      t.pc.toNat = (s.pc.toNat + if (s.readV x).toNat = (s.readV y).toNat then 4 else 2) % 65536 ∧
      Unchanged [.pc] s t) ∧
    (∃ t, exec (.sneReg x y lo) s = .next t ∧
      t.pc.toNat = (s.pc.toNat + if (s.readV x).toNat = (s.readV y).toNat then 2 else 4) % 65536 ∧
      Unchanged [.pc] s t)

/-! ## Registers and ALU -/

/-- R110, R111, R112: `V[x]` takes `kk`, respectively `(V[x] + kk) mod 256`, respectively `V[y]`; no flag is written, so
VF changes only as `V[x]`; nothing else changes but `pc`, no fault. -/
def Obligations.LoadAndAddImmediateAndMove : Prop :=
  ∀ (x y : Reg) (kk : Byte) (s : State),
    (∃ t, exec (.ldImm x kk) s = .next t ∧ t.readV x = kk ∧ regsKept [x] s t ∧ Unchanged [.pc, .V] s t) ∧
    (∃ t, exec (.addImm x kk) s = .next t ∧ (t.readV x).toNat = ((s.readV x).toNat + kk.toNat) % 256 ∧
      regsKept [x] s t ∧ Unchanged [.pc, .V] s t) ∧
    (∃ t, exec (.ldReg x y) s = .next t ∧ t.readV x = s.readV y ∧ regsKept [x] s t ∧ Unchanged [.pc, .V] s t)

/-- R113, R114, R115, bit by bit; VF changes only as `V[x]` (D28). -/
def Obligations.LogicOperationsBitByBit : Prop :=
  ∀ (x y : Reg) (s : State),
    (∃ t, exec (.or x y) s = .next t ∧
      (∀ k < 8, (t.readV x).getLsbD k = ((s.readV x).getLsbD k || (s.readV y).getLsbD k)) ∧
      regsKept [x] s t ∧ Unchanged [.pc, .V] s t) ∧
    (∃ t, exec (.and x y) s = .next t ∧
      (∀ k < 8, (t.readV x).getLsbD k = ((s.readV x).getLsbD k && (s.readV y).getLsbD k)) ∧
      regsKept [x] s t ∧ Unchanged [.pc, .V] s t) ∧
    (∃ t, exec (.xor x y) s = .next t ∧
      (∀ k < 8, (t.readV x).getLsbD k = Bool.xor ((s.readV x).getLsbD k) ((s.readV y).getLsbD k)) ∧
      regsKept [x] s t ∧ Unchanged [.pc, .V] s t)

/-- R116: `V[x]` takes the sum modulo 256 and VF the carry, the sum div 256; when `x` is VF the carry stays (R123, which
rests on D10). -/
def Obligations.AddWithCarryOut : Prop :=
  ∀ (x y : Reg) (s : State), ∃ t, exec (.addReg x y) s = .next t ∧
    (x ≠ VF → (t.readV x).toNat = ((s.readV x).toNat + (s.readV y).toNat) % 256) ∧
    (t.readV VF).toNat = ((s.readV x).toNat + (s.readV y).toNat) / 256 ∧
    regsKept [x, VF] s t ∧ Unchanged [.pc, .V] s t

/-- R117, R119: the difference modulo 256, and VF 1 exactly when there is no borrow (equal operands: D30); when `x` is VF
the flag stays (R123, which rests on D10). -/
def Obligations.SubtractWithNotBorrowOut : Prop :=
  ∀ (x y : Reg) (s : State),
    (∃ t, exec (.sub x y) s = .next t ∧
      (x ≠ VF → (t.readV x).toNat = ((s.readV x).toNat + 256 - (s.readV y).toNat) % 256) ∧
      (t.readV VF).toNat = (if (s.readV y).toNat ≤ (s.readV x).toNat then 1 else 0) ∧
      regsKept [x, VF] s t ∧ Unchanged [.pc, .V] s t) ∧
    (∃ t, exec (.subn x y) s = .next t ∧
      (x ≠ VF → (t.readV x).toNat = ((s.readV y).toNat + 256 - (s.readV x).toNat) % 256) ∧
      (t.readV VF).toNat = (if (s.readV x).toNat ≤ (s.readV y).toNat then 1 else 0) ∧
      regsKept [x, VF] s t ∧ Unchanged [.pc, .V] s t)

/-- R118, R120: the register `SHIFT_SRC` names (P3, log 3) is shifted by one, and VF takes the bit shifted out; when `x` is
VF that bit stays (R123, which rests on D10). -/
def Obligations.ShiftsByOne : Prop :=
  ∀ (x y : Reg) (s : State) (v : Byte),
    (Config.shiftSrc = .vx → v = s.readV x) → (Config.shiftSrc = .vy → v = s.readV y) →
    (∃ t, exec (.shr x y) s = .next t ∧
      (x ≠ VF → (t.readV x).toNat = v.toNat / 2) ∧ (t.readV VF).toNat = v.toNat % 2 ∧
      regsKept [x, VF] s t ∧ Unchanged [.pc, .V] s t) ∧
    (∃ t, exec (.shl x y) s = .next t ∧
      (x ≠ VF → (t.readV x).toNat = v.toNat * 2 % 256) ∧ (t.readV VF).toNat = v.toNat / 128 ∧
      regsKept [x, VF] s t ∧ Unchanged [.pc, .V] s t)

/-- R121: `V[x] <- rnd and kk` for the free input byte of this step, about which nothing is known (R180; D12, log 4), and
the next input is another one; every bit that `kk` clears is 0. The same holds of every value of `rnd`, and every
instruction that uses no input ignores it. -/
def Obligations.RandomByteUnderMask : Prop :=
  ∀ (x : Reg) (kk : Byte) (s : State),
    (∃ t, exec (.rnd x kk) s = .next t ∧ t.draws = s.draws + 1 ∧
      (∀ k < 8, (t.readV x).getLsbD k = (kk.getLsbD k && s.input.getLsbD k)) ∧
      regsKept [x] s t ∧ coreUnchanged [.pc, .V] s.toCoreState t.toCoreState) ∧
    (∀ rnd : Byte, ∃ u, execWith rnd (.rnd x kk) s = .next u ∧
      (∀ k < 8, (u.readV x).getLsbD k = (kk.getLsbD k && rnd.getLsbD k)) ∧
      regsKept [x] s u ∧ Unchanged [.pc, .V] s u) ∧
    (∀ (rnd : Byte) (i : Instr), inputsUsed i = 0 → execWith rnd i s = exec i s)

/-! ## Index register and memory -/

/-- R130: `I <- zext_16(nnn)`, nothing else changes but `pc`, no fault. -/
def Obligations.LoadIndex : Prop :=
  ∀ (nnn : BitVec 12) (s : State), ∃ t, exec (.ldI nnn) s = .next t ∧
    t.I.toNat = nnn.toNat ∧ Unchanged [.pc, .I] s t

/-- R131, R132: `I <- (I + V[x]) mod 65536` (16 bits: D16) and `I <- V[x] * 5` (the whole byte: D18); VF is not
written. -/
def Obligations.AddToIndexAndGlyphAddress : Prop :=
  ∀ (x : Reg) (s : State),
    (∃ t, exec (.addI x) s = .next t ∧ t.I.toNat = (s.I.toNat + (s.readV x).toNat) % 65536 ∧
      Unchanged [.pc, .I] s t) ∧
    (∃ t, exec (.ldF x) s = .next t ∧ t.I.toNat = (s.readV x).toNat * 5 ∧ Unchanged [.pc, .I] s t)

/-- R133: the hundreds, tens and ones of `V[x]` at `I`, `I+1`, `I+2`, every other byte as before; past 0xFFF the step is
`MemoryOutOfRange` (D3). The premise is the canonical form of memory, part of the invariant. -/
def Obligations.StoreDecimalDigits : Prop :=
  ∀ (x : Reg) (s : State), s.mem.wf →
    (s.base + 2 ≤ 0xFFF → ∃ t, exec (.ldB x) s = .next t ∧
      (t.mem.read s.base).toNat = (s.readV x).toNat / 100 ∧
      (t.mem.read (s.base + 1)).toNat = (s.readV x).toNat / 10 % 10 ∧
      (t.mem.read (s.base + 2)).toNat = (s.readV x).toNat % 10 ∧
      memKeptOutside s.base 3 s t ∧ Unchanged [.pc, .mem] s t) ∧
    (0xFFF < s.base + 2 → exec (.ldB x) s = .fault .memoryOutOfRange)

/-- R135: `V[0]` to `V[x]` at `I` to `I+x`, every other byte as before, `I` and the registers unchanged; past 0xFFF the
step is `MemoryOutOfRange` (D3). The premise is the canonical form of memory, part of the invariant. -/
def Obligations.StoreRegisters : Prop :=
  ∀ (x : Reg) (s : State), s.mem.wf →
    (s.base + x.val ≤ 0xFFF → ∃ t, exec (.stRegs x) s = .next t ∧
      (∀ r : Reg, r ≤ x → t.mem.read (s.base + r.val) = s.readV r) ∧
      memKeptOutside s.base (x.val + 1) s t ∧ Unchanged [.pc, .mem] s t) ∧
    (0xFFF < s.base + x.val → exec (.stRegs x) s = .fault .memoryOutOfRange)

/-- R136: `V[0]` to `V[x]` from `I` to `I+x`, the registers above as before, `I` and memory unchanged; past 0xFFF the step
is `MemoryOutOfRange` (D3). -/
def Obligations.LoadRegisters : Prop :=
  ∀ (x : Reg) (s : State),
    (s.base + x.val ≤ 0xFFF → ∃ t, exec (.ldRegs x) s = .next t ∧
      (∀ r : Reg, r ≤ x → t.readV r = s.mem.read (s.base + r.val)) ∧
      (∀ r : Reg, x < r → t.readV r = s.readV r) ∧ Unchanged [.pc, .V] s t) ∧
    (0xFFF < s.base + x.val → exec (.ldRegs x) s = .fault .memoryOutOfRange)

/-- R136: "`Fx55` followed by `Fx65` with the same `x` and `I` restores `V[0..x]`", whatever happened to the registers in
between. -/
def Obligations.StoreThenLoadRestoresRegisters : Prop :=
  ∀ (x : Reg) (s t u : State), s.mem.wf → exec (.stRegs x) s = .next t →
    (∀ a, u.mem.read a = t.mem.read a) → u.I = t.I →
    ∃ w, exec (.ldRegs x) u = .next w ∧ ∀ r : Reg, r ≤ x → w.readV r = s.readV r

/-- R64, which the spec marks as derived: two bytes that `Fx55` stores at the next `pc` are the word the next step
fetches. -/
def Obligations.StoreIsSeenByTheNextFetch : Prop :=
  ∀ (x r : Reg) (s t : State), s.mem.wf → exec (.stRegs x) s = .next t → r < x → t.pc.toNat = s.base + r.val →
    t.fetch = .ok (joinBytes (s.readV r) (s.readV (r + 1)))

/-! ## Display -/

/-- R140: "clears every framebuffer cell to 0 and sets the dirty signal, regardless of prior content"; VF and the rest
unchanged but `pc`, no fault; the step that executes it answers `fb_changed` 1. -/
def Obligations.ClearScreen : Prop :=
  ∀ s : State, ∃ t, exec .cls s = .next t ∧
    (∀ (px : Fin 64) (py : Fin 32), t.FB.pixel px py = false) ∧ t.DIRTY = true ∧
    t.pc.toNat = (s.pc.toNat + 2) % 65536 ∧ Unchanged [.pc, .FB, .DIRTY] s t ∧
    (s.nextInstr = .ok .cls → ∀ rnd, ∃ r, opStep rnd s.toCoreState = some (t.toCoreState, r) ∧ r.status = .ok ∧
      r.fbChanged = true)

/-- R142, R143: the pixels a set sprite bit lands on are toggled, the others kept; VF is 1 exactly when such a pixel was
set; `DIRTY` is set; `I`, memory and the other registers are unchanged. For both values of `SPRITE_EDGE` (P2, log 2).
Rests on D8 (bit order), D9 (`clip`), D10 (VF last) and, for `n = 0`, D27. -/
def Obligations.DrawTogglesTheSpritePixels : Prop :=
  ∀ (x y : Reg) (n : Nat) (s : State), n ≤ 15 → (n = 0 ∨ s.base + n - 1 ≤ 0xFFF) →
    ∃ t, exec (.drw x y n) s = .next t ∧
      (∀ (px : Fin 64) (py : Fin 32),
        (spriteCovers Config.spriteEdge s x y n px py → t.FB.pixel px py = !s.FB.pixel px py) ∧
        (¬ spriteCovers Config.spriteEdge s x y n px py → t.FB.pixel px py = s.FB.pixel px py)) ∧
      ((∃ (px : Fin 64) (py : Fin 32), spriteCovers Config.spriteEdge s x y n px py ∧ s.FB.pixel px py = true) →
        t.readV VF = 1) ∧
      ((¬ ∃ (px : Fin 64) (py : Fin 32), spriteCovers Config.spriteEdge s x y n px py ∧ s.FB.pixel px py = true) →
        t.readV VF = 0) ∧
      t.DIRTY = true ∧ regsKept [VF] s t ∧ Unchanged [.pc, .V, .FB, .DIRTY] s t

/-- R142, R144: rows past 0xFFF are `MemoryOutOfRange` (D3); with no row nothing can be, whatever `I` is, no pixel
changes, VF is 0 and `DIRTY` is set (D27). -/
def Obligations.DrawRangeCheck : Prop :=
  ∀ (x y : Reg) (s : State),
    (∀ n : Nat, 0 < n → 0xFFF < s.base + n - 1 → exec (.drw x y n) s = .fault .memoryOutOfRange) ∧
    (∃ t, exec (.drw x y 0) s = .next t ∧ (∀ (px : Fin 64) (py : Fin 32), t.FB.pixel px py = s.FB.pixel px py) ∧
      t.readV VF = 0 ∧ t.DIRTY = true ∧ regsKept [VF] s t ∧ Unchanged [.pc, .V, .DIRTY] s t)

/-- R145 (a), (b), which the spec marks as derived: the same draw twice, with the same coordinates, `I` and sprite bytes,
restores the framebuffer; where the sprite reaches a pixel and its region was clear, VF is 0 after the first draw and 1
after the second. For both values of `SPRITE_EDGE` (P2, log 2). Which pixels the sprite reaches rests on D8 and D9, VF
on D10. -/
def Obligations.DrawTwiceRestoresTheFramebuffer : Prop :=
  ∀ (x y : Reg) (n : Nat) (s t s' : State), n ≤ 15 → exec (.drw x y n) s = .next t →
    (∀ a, s'.mem.read a = s.mem.read a) → s'.I = s.I → s'.readV x = s.readV x → s'.readV y = s.readV y →
    (∀ (px : Fin 64) (py : Fin 32), s'.FB.pixel px py = t.FB.pixel px py) →
    ∃ u, exec (.drw x y n) s' = .next u ∧
      (∀ (px : Fin 64) (py : Fin 32), u.FB.pixel px py = s.FB.pixel px py) ∧
      ((∃ (px : Fin 64) (py : Fin 32), spriteCovers Config.spriteEdge s x y n px py) →
        (∀ (px : Fin 64) (py : Fin 32), spriteCovers Config.spriteEdge s x y n px py → s.FB.pixel px py = false) →
        t.readV VF = 0 ∧ u.readV VF = 1)

/-- The dirty flag is sticky: a step leaves it set exactly when it was set or the step executed `00E0` or `Dxyn` (R32).
Rests on D20. -/
def Obligations.DirtyFlagIsSticky : Prop :=
  ∀ s t : State, step s = .next t →
    (t.DIRTY = true ↔ s.DIRTY = true ∨ s.nextInstr = .ok .cls ∨ ∃ x y n, s.nextInstr = .ok (.drw x y n))

/-! ## Keypad and timers -/

/-- R150, R151, R156: skip by four when the key that the low four bits of `V[x]` name is down, respectively up, else
advance by two. Rests on D4 (the mask). -/
def Obligations.KeySkips : Prop :=
  ∀ (x : Reg) (s : State) (k : Key), k.val = (s.readV x).toNat % 16 →
    (∃ t, exec (.skp x) s = .next t ∧
      t.pc.toNat = (s.pc.toNat + if s.keyDown k = true then 4 else 2) % 65536 ∧ Unchanged [.pc] s t) ∧
    (∃ t, exec (.sknp x) s = .next t ∧
      t.pc.toNat = (s.pc.toNat + if s.keyDown k = true then 2 else 4) % 65536 ∧ Unchanged [.pc] s t)

/-- R153: with a key down `V[x]` takes the least index down and the step advances; with none the step is `Ok` and the
whole state, `pc` included, is as before. Rests on D19 (the status of the idle step). -/
def Obligations.WaitForKeyTakesTheLowest : Prop :=
  ∀ (x : Reg) (s : State),
    (∀ k : Key, s.keyDown k = true → (∀ j : Key, j < k → s.keyDown j = false) →
      ∃ t, exec (.ldVxK x) s = .next t ∧ (t.readV x).toNat = k.val ∧ t.pc.toNat = (s.pc.toNat + 2) % 65536 ∧
        regsKept [x] s t ∧ Unchanged [.pc, .V] s t) ∧
    ((∀ k : Key, s.keyDown k = false) → exec (.ldVxK x) s = .next s)

/-- R152, R154: `V[x] <- DT` and `DT <- V[x]`, each with `pc <- (pc0 + 2) mod 65536`; nothing else changes, no fault. -/
def Obligations.DelayTimerReadAndWrite : Prop :=
  ∀ (x : Reg) (s : State),
    (∃ t, exec (.ldVxDt x) s = .next t ∧ t.readV x = s.DT ∧ t.pc.toNat = (s.pc.toNat + 2) % 65536 ∧
      regsKept [x] s t ∧ Unchanged [.pc, .V] s t) ∧
    (∃ t, exec (.ldDtVx x) s = .next t ∧ t.DT = s.readV x ∧ t.pc.toNat = (s.pc.toNat + 2) % 65536 ∧
      Unchanged [.pc, .DT] s t)

/-- R155: `ST <- V[x]`, and the `sound` output of that step is the new `ST` (that clause rests on D25). -/
def Obligations.SoundTimerWrite : Prop :=
  ∀ (x : Reg) (s : State), (∃ t, exec (.ldStVx x) s = .next t ∧ t.ST = s.readV x ∧
      t.pc.toNat = (s.pc.toNat + 2) % 65536 ∧ Unchanged [.pc, .ST] s t) ∧
    (s.nextInstr = .ok (.ldStVx x) → ∀ rnd, ∃ t r, opStep rnd s.toCoreState = some (t, r) ∧ r.sound = s.readV x)

/-- No step counts a timer down or touches a key: a timer changes only as the destination of `Fx15` or `Fx18` (R28, R29,
R171) and the latch never (R31). -/
def Obligations.StepNeverCountsTimersOrMovesKeys : Prop :=
  ∀ s t : State, step s = .next t →
    (t.DT = s.DT ∨ ∃ x, s.nextInstr = .ok (.ldDtVx x) ∧ t.DT = s.readV x) ∧
    (t.ST = s.ST ∨ ∃ x, s.nextInstr = .ok (.ldStVx x) ∧ t.ST = s.readV x) ∧
    (∀ k : Key, t.keyDown k = s.keyDown k)

/-! ## The other actors -/

/-- R171: "decrements both timers by 1 if >0"; a timer at 0 stays at 0; nothing else changes. That one operation counts
both down is D22. -/
def Obligations.TickCountsBothTimersDown : Prop :=
  ∀ s : CoreState, (opTick s).DT.toNat = (if 0 < s.DT.toNat then s.DT.toNat - 1 else 0) ∧
    (opTick s).ST.toNat = (if 0 < s.ST.toNat then s.ST.toNat - 1 else 0) ∧
    coreUnchanged [.DT, .ST] s (opTick s)

/-- R61 (a): the value `Fx07` reads is the value of the last `Fx15` minus the number of ticks since, floored at 0, whatever
operations of all actors come between, steps among them with any inputs, as long as none is a `reset` or a step that
executes `Fx15`. -/
def Obligations.DelayReadsLastWriteMinusTicks : Prop :=
  ∀ (x y : Reg) (ops : List Operation) (s t : State) (u : CoreState), exec (.ldDtVx x) s = .next t →
    noDelayWrite ops t.toCoreState → runSchedule ops t.toCoreState = some u →
    ∃ w, exec (.ldVxDt y) (t.withCore u) = .next w ∧ (w.readV y).toNat = (s.readV x).toNat - ops.count .tick

/-- R175: `setKey` sets its key and `clearKey` clears it, the other keys and all other state unchanged. The four-bit index
rests on D5. -/
def Obligations.SetAndClearKey : Prop :=
  ∀ (k : Key) (s : CoreState),
    (∀ j : Key, (opSetKey k s).keyDown j = if j = k then true else s.keyDown j) ∧
    coreUnchanged [.KEY] s (opSetKey k s) ∧
    (∀ j : Key, (opClearKey k s).keyDown j = if j = k then false else s.keyDown j) ∧
    coreUnchanged [.KEY] s (opClearKey k s)

/-- R176: `clearDirty` clears the flag and nothing else; the framebuffer view is all 2048 pixels, pixel (x, y) at index
`y * 64 + x` (the order rests on D11). -/
def Obligations.DisplaySinkInterface : Prop :=
  ∀ s : CoreState, (opClearDirty s).DIRTY = false ∧ coreUnchanged [.DIRTY] s (opClearDirty s) ∧
    (fbView s).length = 2048 ∧
    ∀ (px : Fin 64) (py : Fin 32), (fbView s)[py.val * 64 + px.val]? = some (s.FB.pixel px py)

/-- R165, R192: an image of at most 3584 bytes is copied to 0x200 and up, and only those bytes change; a longer one is
`ProgramTooLarge`, "rejected before any memory is touched". That a load is legal in every state is D29. The premise is the
canonical form of memory, part of the invariant. -/
def Obligations.LoadProgramCopiesOrRejects : Prop :=
  ∀ (bytes : List Byte) (s : CoreState), s.mem.wf →
    (bytes.length ≤ 3584 → ∃ t r, perform (.loadProgram bytes) s = some (t, r) ∧ r.status = .ok ∧
      (∀ k (h : k < bytes.length), t.mem.read (0x200 + k) = bytes[k]) ∧
      (∀ b : Nat, b < 0x200 ∨ 0x200 + bytes.length ≤ b → t.mem.read b = s.mem.read b) ∧ coreUnchanged [.mem] s t) ∧
    (3584 < bytes.length → ∃ r, perform (.loadProgram bytes) s = some (s, r) ∧ r.status = .fault .programTooLarge)

/-- R169, which the spec marks as derived: after a step fault, no step and no operation of the timer, the input actor or
the Sink leads out of it: the next step is the same fault, whatever the inputs are. Rests on D24 (no latch). -/
def Obligations.StepFaultRepeats : Prop :=
  ∀ (op : Operation) (s t : CoreState) (r : Report) (f : Fault) (rnd rnd' : Byte), coreStep rnd s = .fault f →
    perform op s = some (t, r) →
    ((∃ b, op = .step b) ∨ op = .tick ∨ op = .clearDirty ∨ (∃ k, op = .setKey k) ∨ ∃ k, op = .clearKey k) →
    coreStep rnd' t = .fault f

/-- R202: at a self-jump every step leaves the state unchanged, whatever its input, and every further step does so, for
ever, without a fault, in a run of steps alone: what the other actors do between steps is left out of such a run (the
model's choice, log 6). The definition of the end
of a run is D33. -/
def Obligations.SelfJumpIsForEver : Prop :=
  ∀ (n : Nat) (s : State), atSelfJump s →
    step s = .next s ∧ (∀ rnd, coreStep rnd s.toCoreState = .next s.toCoreState) ∧
    Host.Core.run core n s = .next s ∧ safeFor n s

/-! ## What a program cannot see -/

/-- No instruction reads `ST` (R29), `DIRTY` (R32) or a dead stack entry (R26): two states of the core that agree on
everything else take, with the same input, steps that agree on everything else, or fault alike. -/
def Obligations.ProgramCannotSeeSoundDirtyOrDeadStack : Prop :=
  ∀ (rnd : Byte) (s s' : CoreState), sameToProgram s s' →
    (∃ t t', coreStep rnd s = .next t ∧ coreStep rnd s' = .next t' ∧ sameToProgram t t') ∨
    ∃ f, coreStep rnd s = .fault f ∧ coreStep rnd s' = .fault f
end

