-- ==== Sys2Proof/Laws/Alu.lean ====
section
/-! SUPPORT. The computed operands and the flags, in the integer arithmetic of the spec. -/

namespace Sys2Proof.Machine

/-- The shift operand is the spec's choice between `V[x]` and `V[y]` (R118, R120). -/
theorem shiftOperand_eq (src : Config.ShiftSrc) (vx vy : Byte) :
    shiftOperand src vx vy = match src with | .vx => vx | .vy => vy := by
  by_cases h : vx = vy <;> cases src <;> simp [shiftOperand, h]

/-- `nnn + V[0]` never wraps at 16 bits (R101). -/
theorem toNat_offsetTarget (nnn : BitVec 12) (v0 : Byte) : (offsetTarget nnn v0).toNat = nnn.toNat + v0.toNat := by
  have := nnn.isLt
  have := v0.isLt
  simp only [offsetTarget, BitVec.toNat_add, BitVec.toNat_setWidth]
  omega

theorem toNat_indexSum (i : Word) (v : Byte) : (indexSum i v).toNat = (i.toNat + v.toNat) % 65536 := by
  have := v.isLt
  simp only [indexSum, BitVec.toNat_add, BitVec.toNat_setWidth]
  omega

/-- The product never overflows 16 bits (R132). -/
theorem toNat_glyphAddress (v : Byte) : (glyphAddress v).toNat = v.toNat * 5 := by
  have := v.isLt
  simp only [glyphAddress, BitVec.toNat_mul, BitVec.toNat_setWidth, show (5 : Word).toNat = 5 from rfl]
  omega

theorem toNat_zext16 (nnn : BitVec 12) : (zext16 nnn).toNat = nnn.toNat := by
  have := nnn.isLt
  simp only [BitVec.toNat_setWidth]
  omega

@[simp] theorem length_bcdDigits (v : Byte) : (bcdDigits v).length = 3 := rfl

/-- A flag is 0 or 1 (R22). -/
theorem flagByte_cases (b : Bool) : flagByte b = 0 ∨ flagByte b = 1 := by
  cases b <;> simp [flagByte]

@[simp] theorem flagByte_true : flagByte true = 1 := rfl

@[simp] theorem flagByte_false : flagByte false = 0 := rfl

/-- The carry is the ninth bit of the sum: `s div 256` (R116). -/
theorem toNat_flagByte_carryOut (a b : Byte) : (flagByte (carryOut a b)).toNat = (a.toNat + b.toNat) / 256 := by
  have := a.isLt
  have := b.isLt
  by_cases h : 255 < a.toNat + b.toNat
  · have e : (a.toNat + b.toNat) / 256 = 1 := by omega
    simp [carryOut, h, e]
  · have e : (a.toNat + b.toNat) / 256 = 0 := by omega
    simp [carryOut, h, e]

end Sys2Proof.Machine
end

