-- ==== Sys2Proof/Laws/Decode.lean ====
section
/-! SUPPORT. The fields of a word built in one of the formats of spec/30_encoding.md R72, and words from their bytes. -/

namespace Sys2Proof

@[simp] theorem regOf_regBits (r : Reg) : regOf (regBits r) = r := by
  apply Fin.ext
  simp [regOf, regBits]

@[simp] theorem regBits_regOf (b : BitVec 4) : regBits (regOf b) = b := by
  apply BitVec.eq_of_toNat_eq
  simp [regOf, regBits]

/-- Packing the two bytes of a word gives the word (R54). -/
@[simp] theorem joinBytes_hi_lo (op : Word) : joinBytes (hiByte op) (loByte op) = op := by
  apply BitVec.eq_of_getLsbD_eq
  intro i hi
  simp only [joinBytes, hiByte, loByte, BitVec.getLsbD_append, BitVec.getLsbD_extractLsb']
  by_cases h : i < 8
  · simp [h]
  · simp [h, show i - 8 < 8 by omega, show 8 + (i - 8) = i by omega]

@[simp] theorem hiByte_join (hi lo : Byte) : hiByte (joinBytes hi lo) = hi := by
  apply BitVec.eq_of_getLsbD_eq
  intro i hi'
  simp only [joinBytes, hiByte, BitVec.getLsbD_append, BitVec.getLsbD_extractLsb']
  simp [hi']

@[simp] theorem loByte_join (hi lo : Byte) : loByte (joinBytes hi lo) = lo := by
  apply BitVec.eq_of_getLsbD_eq
  intro i hi'
  simp only [joinBytes, loByte, BitVec.getLsbD_append, BitVec.getLsbD_extractLsb']
  simp [hi']

/-- The word as a number: `Mem[pc0] * 256 + Mem[pc0+1]` (R54). -/
theorem toNat_joinBytes (hi lo : Byte) : (joinBytes hi lo).toNat = hi.toNat * 256 + lo.toNat := by
  rw [joinBytes, BitVec.toNat_append, Nat.shiftLeft_eq, Nat.mul_comm]
  rw [← Nat.two_pow_add_eq_or_of_lt lo.isLt, Nat.mul_comm]

/-- Two bytes alone decode to an instruction exactly when their word does. -/
theorem decode_pair {hi lo : Byte} {i : Instr} :
    decode [hi, lo] = .ok (i, []) ↔ decodeWord (joinBytes hi lo) = some i := by
  simp only [decode]
  rcases decodeWord (joinBytes hi lo) with _ | j <;> simp

/-! The fields that select an instruction, as numbers. -/

theorem toNat_fieldFamily (op : Word) : (fieldFamily op).toNat = op.toNat / 4096 := by
  have := op.isLt
  simp only [fieldFamily, BitVec.extractLsb'_toNat, Nat.shiftRight_eq_div_pow]
  omega

theorem toNat_fieldN (op : Word) : (fieldN op).toNat = op.toNat % 16 := by
  simp [fieldN, BitVec.extractLsb'_toNat]

theorem toNat_fieldKK (op : Word) : (fieldKK op).toNat = op.toNat % 256 := by
  simp [fieldKK, BitVec.extractLsb'_toNat]

/-! The fields of the formats. -/

section formats
variable (f : BitVec 4) (x y : Reg) (n : BitVec 4) (kk : Byte) (nnn : BitVec 12)

@[simp] theorem family_wordNNN : fieldFamily (wordNNN f nnn) = f := by
  apply BitVec.eq_of_getLsbD_eq
  intro i hi
  simp only [fieldFamily, wordNNN, BitVec.getLsbD_append, BitVec.getLsbD_extractLsb']
  simp [hi]

@[simp] theorem nnn_wordNNN : fieldNNN (wordNNN f nnn) = nnn := by
  apply BitVec.eq_of_getLsbD_eq
  intro i hi
  simp only [fieldNNN, wordNNN, BitVec.getLsbD_append, BitVec.getLsbD_extractLsb']
  simp [hi]

@[simp] theorem family_wordXKK : fieldFamily (wordXKK f x kk) = f := by
  apply BitVec.eq_of_getLsbD_eq
  intro i hi
  simp only [fieldFamily, wordXKK, BitVec.getLsbD_append, BitVec.getLsbD_extractLsb']
  simp [hi]

@[simp] theorem x_wordXKK : fieldX (wordXKK f x kk) = x := by
  have h : (wordXKK f x kk).extractLsb' 8 4 = regBits x := by
    apply BitVec.eq_of_getLsbD_eq
    intro i hi
    simp only [wordXKK, BitVec.getLsbD_append, BitVec.getLsbD_extractLsb']
    simp [hi, show 8 + i < 12 by omega]
  rw [fieldX, h, regOf_regBits]

@[simp] theorem kk_wordXKK : fieldKK (wordXKK f x kk) = kk := by
  apply BitVec.eq_of_getLsbD_eq
  intro i hi
  simp only [fieldKK, wordXKK, BitVec.getLsbD_append, BitVec.getLsbD_extractLsb']
  simp [hi, show i < 12 by omega]

@[simp] theorem family_wordXYN : fieldFamily (wordXYN f x y n) = f := by
  apply BitVec.eq_of_getLsbD_eq
  intro i hi
  simp only [fieldFamily, wordXYN, BitVec.getLsbD_append, BitVec.getLsbD_extractLsb']
  simp [hi]

@[simp] theorem x_wordXYN : fieldX (wordXYN f x y n) = x := by
  have h : (wordXYN f x y n).extractLsb' 8 4 = regBits x := by
    apply BitVec.eq_of_getLsbD_eq
    intro i hi
    simp only [wordXYN, BitVec.getLsbD_append, BitVec.getLsbD_extractLsb']
    simp [hi, show 8 + i < 12 by omega]
  rw [fieldX, h, regOf_regBits]

@[simp] theorem y_wordXYN : fieldY (wordXYN f x y n) = y := by
  have h : (wordXYN f x y n).extractLsb' 4 4 = regBits y := by
    apply BitVec.eq_of_getLsbD_eq
    intro i hi
    simp only [wordXYN, BitVec.getLsbD_append, BitVec.getLsbD_extractLsb']
    simp [hi, show 4 + i < 12 by omega, show 4 + i < 8 by omega]
  rw [fieldY, h, regOf_regBits]

@[simp] theorem n_wordXYN : fieldN (wordXYN f x y n) = n := by
  apply BitVec.eq_of_getLsbD_eq
  intro i hi
  simp only [fieldN, wordXYN, BitVec.getLsbD_append, BitVec.getLsbD_extractLsb']
  simp [hi, show i < 12 by omega, show i < 8 by omega]

end formats

/-! A word from its fields: the formats read in the other direction. -/

section fields
variable (op : Word)

theorem wordNNN_fields : wordNNN (fieldFamily op) (fieldNNN op) = op := by
  apply BitVec.eq_of_getLsbD_eq
  intro i hi
  simp only [wordNNN, fieldFamily, fieldNNN, BitVec.getLsbD_append, BitVec.getLsbD_extractLsb']
  by_cases h : i < 12
  · simp [h]
  · simp [h, show i - 12 < 4 by omega, show 12 + (i - 12) = i by omega]

theorem wordXKK_fields : wordXKK (fieldFamily op) (fieldX op) (fieldKK op) = op := by
  apply BitVec.eq_of_getLsbD_eq
  intro i hi
  simp only [wordXKK, fieldFamily, fieldX, fieldKK, regBits_regOf, BitVec.getLsbD_append, BitVec.getLsbD_extractLsb']
  by_cases h : i < 8
  · simp [h, show i < 12 by omega]
  by_cases h2 : i < 12
  · simp [h, h2, show i - 8 < 4 by omega, show 8 + (i - 8) = i by omega]
  · simp [h2, show i - 12 < 4 by omega, show 12 + (i - 12) = i by omega]

theorem wordXYN_fields : wordXYN (fieldFamily op) (fieldX op) (fieldY op) (fieldN op) = op := by
  apply BitVec.eq_of_getLsbD_eq
  intro i hi
  simp only [wordXYN, fieldFamily, fieldX, fieldY, fieldN, regBits_regOf, BitVec.getLsbD_append,
    BitVec.getLsbD_extractLsb']
  by_cases h : i < 4
  · simp [h, show i < 12 by omega, show i < 8 by omega]
  by_cases h1 : i < 8
  · simp [h, h1, show i < 12 by omega, show i - 4 < 4 by omega, show 4 + (i - 4) = i by omega]
  by_cases h2 : i < 12
  · simp [h1, h2, show i - 8 < 4 by omega, show 8 + (i - 8) = i by omega]
  · simp [h2, show i - 12 < 4 by omega, show 12 + (i - 12) = i by omega]

end fields

end Sys2Proof
end

