-- ==== Sys2Proof/Laws/Memory.lean ====
section
/-! SUPPORT. Memory: a read after a write, the canonical form kept by every operation, and equal memories as equal data. -/

namespace Sys2Proof.Machine.Memory

@[simp] theorem read_nil (a : Nat) : Memory.read [] a = unlisted a := rfl

theorem read_cons (b : Nat) (v : Byte) (rest : Memory) (a : Nat) :
    Memory.read ((b, v) :: rest) a = if a = b then v else Memory.read rest a := rfl

/-- Below the lowest listed address a memory reads as its reset contents. -/
theorem read_of_lt {m : Memory} {a : Nat} (h : ∀ c ∈ m, a < c.1) : m.read a = unlisted a := by
  induction m with
  | nil => rfl
  | cons c rest ih =>
    have hc : a < c.1 := h c (by simp)
    rw [show c :: rest = (c.1, c.2) :: rest from rfl, read_cons, if_neg (by omega)]
    exact ih fun d hd => h d (by simp [hd])

/-- In a canonical memory every cell after the first has a higher address. -/
theorem wf_tail {c : Host.Cell} {rest : Memory} (h : Memory.wf (c :: rest)) :
    Memory.wf rest ∧ (∀ d ∈ rest, c.1 < d.1) ∧ c.1 < Config.memSize ∧ c.2 ≠ unlisted c.1 := by
  obtain ⟨hp, hc⟩ := h
  rw [List.pairwise_cons] at hp
  exact ⟨⟨hp.2, fun d hd => hc d (by simp [hd])⟩, hp.1, hc c (by simp)⟩

/-- A read after a write to the same address gives the byte written, another address reads as before (R52). -/
theorem read_write {m : Memory} (hm : m.wf) (a : Nat) (v : Byte) (b : Nat) :
    (m.write a v).read b = if b = a then v else m.read b := by
  induction m with
  | nil =>
    by_cases hv : v = unlisted a
    · subst hv
      by_cases hb : b = a <;> simp [Memory.write, hb]
    · simp [Memory.write, hv, read_cons]
  | cons c rest ih =>
    obtain ⟨k, w⟩ := c
    obtain ⟨hrest, hgt, -, -⟩ := wf_tail hm
    have hlow : ∀ x, x < k → Memory.read ((k, w) :: rest) x = unlisted x := fun x hx => by
      rw [read_cons, if_neg (by omega)]
      exact read_of_lt fun d hd => lt_trans hx (hgt d hd)
    rcases lt_trichotomy a k with hlt | heq | hgt'
    · by_cases hv : v = unlisted a
      · by_cases hb : b = a
        · subst hb; simp [Memory.write, hlt, hv, hlow _ hlt]
        · simp [Memory.write, hlt, hv, hb]
      · simp [Memory.write, hlt, hv, read_cons]
    · subst heq
      by_cases hv : v = unlisted a
      · by_cases hb : b = a
        · subst hb; simp [Memory.write, hv, read_of_lt hgt]
        · simp [Memory.write, hv, hb, read_cons]
      · by_cases hb : b = a <;> simp [Memory.write, hv, hb, read_cons]
    · have hn : ¬ a < k := by omega
      have hne : ¬ a = k := by omega
      simp only [Memory.write, hn, hne, if_false, read_cons, ih hrest]
      by_cases hb : b = k
      · have hba : ¬ b = a := by omega
        simp [hb]; omega
      · simp [hb]

/-- What a written memory lists: the cell written and cells listed before. -/
theorem mem_write {m : Memory} {a : Nat} {v : Byte} {c : Host.Cell} (h : c ∈ m.write a v) :
    (c = (a, v) ∧ v ≠ unlisted a) ∨ c ∈ m := by
  induction m with
  | nil =>
    by_cases hv : v = unlisted a <;> simp_all [Memory.write]
  | cons d rest ih =>
    obtain ⟨k, w⟩ := d
    simp only [Memory.write] at h
    split at h
    · split at h
      · exact .inr h
      · rcases List.mem_cons.1 h with rfl | h
        · exact .inl ⟨rfl, by assumption⟩
        · exact .inr h
    · split at h
      · split at h
        · exact .inr (by simp [h])
        · rcases List.mem_cons.1 h with rfl | h
          · exact .inl ⟨rfl, by assumption⟩
          · exact .inr (by simp [h])
      · rcases List.mem_cons.1 h with rfl | h
        · exact .inr (by simp)
        · exact (ih h).imp id fun h => by simp [h]

/-- A write inside the 4096 bytes keeps the canonical form. -/
theorem write_wf {m : Memory} (hm : m.wf) {a : Nat} (ha : a < Config.memSize) (v : Byte) : (m.write a v).wf := by
  refine ⟨?_, fun c hc => ?_⟩
  · induction m with
    | nil => by_cases hv : v = unlisted a <;> simp [Memory.write, hv]
    | cons d rest ih =>
      obtain ⟨k, w⟩ := d
      obtain ⟨hrest, hgt, -, -⟩ := wf_tail hm
      have hrp := hrest.1
      simp only [Memory.write]
      split
      · split
        · exact hm.1
        · refine List.pairwise_cons.2 ⟨fun c hc => ?_, hm.1⟩
          rcases List.mem_cons.1 hc with rfl | hc
          · assumption
          · exact lt_trans ‹a < k› (hgt c hc)
      · split
        · subst a
          split
          · exact hrp
          · exact List.pairwise_cons.2 ⟨hgt, hrp⟩
        · refine List.pairwise_cons.2 ⟨fun c hc => ?_, ih hrest⟩
          rcases mem_write hc with ⟨rfl, -⟩ | hc
          · show k < a
            omega
          · exact hgt c hc
  · rcases mem_write hc with ⟨rfl, hv⟩ | hc
    · exact ⟨ha, hv⟩
    · exact hm.2 c hc

@[simp] theorem writeBytes_nil (m : Memory) (a : Nat) : m.writeBytes a [] = m := rfl

@[simp] theorem writeBytes_cons (m : Memory) (a : Nat) (v : Byte) (rest : List Byte) :
    m.writeBytes a (v :: rest) = (m.write a v).writeBytes (a + 1) rest := rfl

/-- Writing bytes inside the 4096 bytes keeps the canonical form. -/
theorem writeBytes_wf {m : Memory} (hm : m.wf) {a : Nat} {bytes : List Byte}
    (h : bytes = [] ∨ a + bytes.length ≤ Config.memSize) : (m.writeBytes a bytes).wf := by
  induction bytes generalizing m a with
  | nil => exact hm
  | cons v rest ih =>
    have hlen : a + (rest.length + 1) ≤ Config.memSize := by simpa using h
    exact ih (write_wf hm (by omega) v) (.inr (by omega))

/-- What a byte reads as after bytes are written from address `a` up: the byte written there, or as before. -/
theorem read_writeBytes {m : Memory} (hm : m.wf) {a : Nat} {bytes : List Byte}
    (h : bytes = [] ∨ a + bytes.length ≤ Config.memSize) (b : Nat) :
    (m.writeBytes a bytes).read b =
      if hb : a ≤ b ∧ b - a < bytes.length then bytes[b - a]'hb.2 else m.read b := by
  induction bytes generalizing m a with
  | nil => simp
  | cons v rest ih =>
    have hlen : a + (rest.length + 1) ≤ Config.memSize := by simpa using h
    rw [writeBytes_cons, ih (write_wf hm (by omega) v) (.inr (by omega)), read_write hm]
    rcases lt_trichotomy b a with hlt | heq | hgt
    · rw [dif_neg (by omega), dif_neg (by omega), if_neg (by omega)]
    · subst heq
      rw [dif_neg (by omega), dif_pos ⟨le_refl _, by simp⟩]
      simp
    · obtain ⟨k, rfl⟩ : ∃ k, b = a + 1 + k := ⟨b - a - 1, by omega⟩
      have e1 : a + 1 + k - (a + 1) = k := by omega
      have e2 : a + 1 + k - a = k + 1 := by omega
      have e3 : ¬ a + 1 + k = a := by omega
      by_cases hk : k < rest.length
      · rw [dif_pos ⟨by omega, by omega⟩, dif_pos ⟨by omega, by simp only [List.length_cons]; omega⟩]
        simp [e1, e2]
      · rw [dif_neg (by omega), dif_neg (by simp only [List.length_cons]; omega), if_neg e3]

@[simp] theorem length_readBytes (m : Memory) (a n : Nat) : (m.readBytes a n).length = n := by
  induction n generalizing a with
  | zero => rfl
  | succ n ih => simp [Memory.readBytes, ih]

/-- The `k`-th byte read from address `a` up is the byte at `a + k`. -/
theorem getElem_readBytes (m : Memory) (a n k : Nat) (h : k < (m.readBytes a n).length) :
    (m.readBytes a n)[k] = m.read (a + k) := by
  induction n generalizing a k with
  | zero => simp at h
  | succ n ih =>
    cases k with
    | zero => rfl
    | succ k =>
      simp only [Memory.readBytes, List.getElem_cons_succ]
      rw [ih (a + 1) k (by simpa [Memory.readBytes] using h)]
      congr 1
      omega

/-- Canonical memories that read alike are the same list. -/
theorem eq_of_read_eq {m m' : Memory} (hm : m.wf) (hm' : m'.wf) (h : ∀ a, m.read a = m'.read a) : m = m' := by
  induction m generalizing m' with
  | nil =>
    cases m' with
    | nil => rfl
    | cons d rest' =>
      obtain ⟨-, -, -, hd⟩ := wf_tail hm'
      exact absurd ((h d.1).symm.trans rfl) (by simpa [Memory.read] using hd)
  | cons c rest ih =>
    obtain ⟨hrest, hgt, -, hc⟩ := wf_tail hm
    cases m' with
    | nil => exact absurd (h c.1) (by simpa [Memory.read] using hc)
    | cons d rest' =>
      obtain ⟨hrest', hgt', -, hd⟩ := wf_tail hm'
      have key : c.1 = d.1 := by
        rcases lt_trichotomy c.1 d.1 with hlt | heq | hlt
        · have := h c.1
          rw [read_of_lt (m := d :: rest') (a := c.1) (by
            intro e he
            rcases List.mem_cons.1 he with rfl | he
            · exact hlt
            · exact lt_trans hlt (hgt' e he))] at this
          exact absurd this (by simpa [Memory.read] using hc)
        · exact heq
        · have := h d.1
          rw [read_of_lt (m := c :: rest) (a := d.1) (by
            intro e he
            rcases List.mem_cons.1 he with rfl | he
            · exact hlt
            · exact lt_trans hlt (hgt e he))] at this
          exact absurd this.symm (by simpa [Memory.read] using hd)
      have hv : c.2 = d.2 := by
        have := h c.1
        simpa [Memory.read, key] using this
      have htail : rest = rest' := by
        refine ih hrest hrest' fun a => ?_
        by_cases ha : a = c.1
        · rw [read_of_lt fun e he => ha ▸ hgt e he, read_of_lt fun e he => ha ▸ key ▸ hgt' e he]
        · have := h a
          rw [show c :: rest = (c.1, c.2) :: rest from rfl, show d :: rest' = (d.1, d.2) :: rest' from rfl,
            read_cons, read_cons, if_neg ha, if_neg (key ▸ ha)] at this
          exact this
      rw [htail, Prod.ext key hv]

/-- Memory after reset lists nothing, which is canonical. -/
theorem nil_wf : Memory.wf [] := by simp [Memory.wf]

end Sys2Proof.Machine.Memory
end

