-- ==== Sys2Proof/Laws/State.lean ====
section
/-! SUPPORT. One lemma per field per update of the core's state, and of the input beside it. -/

namespace Sys2Proof.Machine.CoreState

section setMem
variable (s : CoreState) (v : Memory)
@[simp] theorem setMem_mem : (s.setMem v).mem = v := rfl
@[simp] theorem setMem_V : (s.setMem v).V = s.V := rfl
@[simp] theorem setMem_I : (s.setMem v).I = s.I := rfl
@[simp] theorem setMem_pc : (s.setMem v).pc = s.pc := rfl
@[simp] theorem setMem_Stack : (s.setMem v).Stack = s.Stack := rfl
@[simp] theorem setMem_SP : (s.setMem v).SP = s.SP := rfl
@[simp] theorem setMem_DT : (s.setMem v).DT = s.DT := rfl
@[simp] theorem setMem_ST : (s.setMem v).ST = s.ST := rfl
@[simp] theorem setMem_FB : (s.setMem v).FB = s.FB := rfl
@[simp] theorem setMem_KEY : (s.setMem v).KEY = s.KEY := rfl
@[simp] theorem setMem_DIRTY : (s.setMem v).DIRTY = s.DIRTY := rfl
end setMem

section setV
variable (s : CoreState) (v : Vector Byte 16)
@[simp] theorem setV_mem : (s.setV v).mem = s.mem := rfl
@[simp] theorem setV_V : (s.setV v).V = v := rfl
@[simp] theorem setV_I : (s.setV v).I = s.I := rfl
@[simp] theorem setV_pc : (s.setV v).pc = s.pc := rfl
@[simp] theorem setV_Stack : (s.setV v).Stack = s.Stack := rfl
@[simp] theorem setV_SP : (s.setV v).SP = s.SP := rfl
@[simp] theorem setV_DT : (s.setV v).DT = s.DT := rfl
@[simp] theorem setV_ST : (s.setV v).ST = s.ST := rfl
@[simp] theorem setV_FB : (s.setV v).FB = s.FB := rfl
@[simp] theorem setV_KEY : (s.setV v).KEY = s.KEY := rfl
@[simp] theorem setV_DIRTY : (s.setV v).DIRTY = s.DIRTY := rfl
end setV

section setI
variable (s : CoreState) (v : Word)
@[simp] theorem setI_mem : (s.setI v).mem = s.mem := rfl
@[simp] theorem setI_V : (s.setI v).V = s.V := rfl
@[simp] theorem setI_I : (s.setI v).I = v := rfl
@[simp] theorem setI_pc : (s.setI v).pc = s.pc := rfl
@[simp] theorem setI_Stack : (s.setI v).Stack = s.Stack := rfl
@[simp] theorem setI_SP : (s.setI v).SP = s.SP := rfl
@[simp] theorem setI_DT : (s.setI v).DT = s.DT := rfl
@[simp] theorem setI_ST : (s.setI v).ST = s.ST := rfl
@[simp] theorem setI_FB : (s.setI v).FB = s.FB := rfl
@[simp] theorem setI_KEY : (s.setI v).KEY = s.KEY := rfl
@[simp] theorem setI_DIRTY : (s.setI v).DIRTY = s.DIRTY := rfl
end setI

section setPc
variable (s : CoreState) (v : Word)
@[simp] theorem setPc_mem : (s.setPc v).mem = s.mem := rfl
@[simp] theorem setPc_V : (s.setPc v).V = s.V := rfl
@[simp] theorem setPc_I : (s.setPc v).I = s.I := rfl
@[simp] theorem setPc_pc : (s.setPc v).pc = v := rfl
@[simp] theorem setPc_Stack : (s.setPc v).Stack = s.Stack := rfl
@[simp] theorem setPc_SP : (s.setPc v).SP = s.SP := rfl
@[simp] theorem setPc_DT : (s.setPc v).DT = s.DT := rfl
@[simp] theorem setPc_ST : (s.setPc v).ST = s.ST := rfl
@[simp] theorem setPc_FB : (s.setPc v).FB = s.FB := rfl
@[simp] theorem setPc_KEY : (s.setPc v).KEY = s.KEY := rfl
@[simp] theorem setPc_DIRTY : (s.setPc v).DIRTY = s.DIRTY := rfl
end setPc

section setStack
variable (s : CoreState) (v : Vector Word 16)
@[simp] theorem setStack_mem : (s.setStack v).mem = s.mem := rfl
@[simp] theorem setStack_V : (s.setStack v).V = s.V := rfl
@[simp] theorem setStack_I : (s.setStack v).I = s.I := rfl
@[simp] theorem setStack_pc : (s.setStack v).pc = s.pc := rfl
@[simp] theorem setStack_Stack : (s.setStack v).Stack = v := rfl
@[simp] theorem setStack_SP : (s.setStack v).SP = s.SP := rfl
@[simp] theorem setStack_DT : (s.setStack v).DT = s.DT := rfl
@[simp] theorem setStack_ST : (s.setStack v).ST = s.ST := rfl
@[simp] theorem setStack_FB : (s.setStack v).FB = s.FB := rfl
@[simp] theorem setStack_KEY : (s.setStack v).KEY = s.KEY := rfl
@[simp] theorem setStack_DIRTY : (s.setStack v).DIRTY = s.DIRTY := rfl
end setStack

section setSP
variable (s : CoreState) (v : Fin 17)
@[simp] theorem setSP_mem : (s.setSP v).mem = s.mem := rfl
@[simp] theorem setSP_V : (s.setSP v).V = s.V := rfl
@[simp] theorem setSP_I : (s.setSP v).I = s.I := rfl
@[simp] theorem setSP_pc : (s.setSP v).pc = s.pc := rfl
@[simp] theorem setSP_Stack : (s.setSP v).Stack = s.Stack := rfl
@[simp] theorem setSP_SP : (s.setSP v).SP = v := rfl
@[simp] theorem setSP_DT : (s.setSP v).DT = s.DT := rfl
@[simp] theorem setSP_ST : (s.setSP v).ST = s.ST := rfl
@[simp] theorem setSP_FB : (s.setSP v).FB = s.FB := rfl
@[simp] theorem setSP_KEY : (s.setSP v).KEY = s.KEY := rfl
@[simp] theorem setSP_DIRTY : (s.setSP v).DIRTY = s.DIRTY := rfl
end setSP

section setDT
variable (s : CoreState) (v : Byte)
@[simp] theorem setDT_mem : (s.setDT v).mem = s.mem := rfl
@[simp] theorem setDT_V : (s.setDT v).V = s.V := rfl
@[simp] theorem setDT_I : (s.setDT v).I = s.I := rfl
@[simp] theorem setDT_pc : (s.setDT v).pc = s.pc := rfl
@[simp] theorem setDT_Stack : (s.setDT v).Stack = s.Stack := rfl
@[simp] theorem setDT_SP : (s.setDT v).SP = s.SP := rfl
@[simp] theorem setDT_DT : (s.setDT v).DT = v := rfl
@[simp] theorem setDT_ST : (s.setDT v).ST = s.ST := rfl
@[simp] theorem setDT_FB : (s.setDT v).FB = s.FB := rfl
@[simp] theorem setDT_KEY : (s.setDT v).KEY = s.KEY := rfl
@[simp] theorem setDT_DIRTY : (s.setDT v).DIRTY = s.DIRTY := rfl
end setDT

section setST
variable (s : CoreState) (v : Byte)
@[simp] theorem setST_mem : (s.setST v).mem = s.mem := rfl
@[simp] theorem setST_V : (s.setST v).V = s.V := rfl
@[simp] theorem setST_I : (s.setST v).I = s.I := rfl
@[simp] theorem setST_pc : (s.setST v).pc = s.pc := rfl
@[simp] theorem setST_Stack : (s.setST v).Stack = s.Stack := rfl
@[simp] theorem setST_SP : (s.setST v).SP = s.SP := rfl
@[simp] theorem setST_DT : (s.setST v).DT = s.DT := rfl
@[simp] theorem setST_ST : (s.setST v).ST = v := rfl
@[simp] theorem setST_FB : (s.setST v).FB = s.FB := rfl
@[simp] theorem setST_KEY : (s.setST v).KEY = s.KEY := rfl
@[simp] theorem setST_DIRTY : (s.setST v).DIRTY = s.DIRTY := rfl
end setST

section setFB
variable (s : CoreState) (v : Frame)
@[simp] theorem setFB_mem : (s.setFB v).mem = s.mem := rfl
@[simp] theorem setFB_V : (s.setFB v).V = s.V := rfl
@[simp] theorem setFB_I : (s.setFB v).I = s.I := rfl
@[simp] theorem setFB_pc : (s.setFB v).pc = s.pc := rfl
@[simp] theorem setFB_Stack : (s.setFB v).Stack = s.Stack := rfl
@[simp] theorem setFB_SP : (s.setFB v).SP = s.SP := rfl
@[simp] theorem setFB_DT : (s.setFB v).DT = s.DT := rfl
@[simp] theorem setFB_ST : (s.setFB v).ST = s.ST := rfl
@[simp] theorem setFB_FB : (s.setFB v).FB = v := rfl
@[simp] theorem setFB_KEY : (s.setFB v).KEY = s.KEY := rfl
@[simp] theorem setFB_DIRTY : (s.setFB v).DIRTY = s.DIRTY := rfl
end setFB

section setKEY
variable (s : CoreState) (v : Vector Bool 16)
@[simp] theorem setKEY_mem : (s.setKEY v).mem = s.mem := rfl
@[simp] theorem setKEY_V : (s.setKEY v).V = s.V := rfl
@[simp] theorem setKEY_I : (s.setKEY v).I = s.I := rfl
@[simp] theorem setKEY_pc : (s.setKEY v).pc = s.pc := rfl
@[simp] theorem setKEY_Stack : (s.setKEY v).Stack = s.Stack := rfl
@[simp] theorem setKEY_SP : (s.setKEY v).SP = s.SP := rfl
@[simp] theorem setKEY_DT : (s.setKEY v).DT = s.DT := rfl
@[simp] theorem setKEY_ST : (s.setKEY v).ST = s.ST := rfl
@[simp] theorem setKEY_FB : (s.setKEY v).FB = s.FB := rfl
@[simp] theorem setKEY_KEY : (s.setKEY v).KEY = v := rfl
@[simp] theorem setKEY_DIRTY : (s.setKEY v).DIRTY = s.DIRTY := rfl
end setKEY

section setDIRTY
variable (s : CoreState) (v : Bool)
@[simp] theorem setDIRTY_mem : (s.setDIRTY v).mem = s.mem := rfl
@[simp] theorem setDIRTY_V : (s.setDIRTY v).V = s.V := rfl
@[simp] theorem setDIRTY_I : (s.setDIRTY v).I = s.I := rfl
@[simp] theorem setDIRTY_pc : (s.setDIRTY v).pc = s.pc := rfl
@[simp] theorem setDIRTY_Stack : (s.setDIRTY v).Stack = s.Stack := rfl
@[simp] theorem setDIRTY_SP : (s.setDIRTY v).SP = s.SP := rfl
@[simp] theorem setDIRTY_DT : (s.setDIRTY v).DT = s.DT := rfl
@[simp] theorem setDIRTY_ST : (s.setDIRTY v).ST = s.ST := rfl
@[simp] theorem setDIRTY_FB : (s.setDIRTY v).FB = s.FB := rfl
@[simp] theorem setDIRTY_KEY : (s.setDIRTY v).KEY = s.KEY := rfl
@[simp] theorem setDIRTY_DIRTY : (s.setDIRTY v).DIRTY = v := rfl
end setDIRTY

end Sys2Proof.Machine.CoreState

namespace Sys2Proof.Machine.State

/-! The core and its input (R35, R180). -/

@[simp] theorem withCore_toCoreState (s : State) (c : CoreState) : (s.withCore c).toCoreState = c := rfl
@[simp] theorem withCore_draws (s : State) (c : CoreState) : (s.withCore c).draws = s.draws := rfl
@[simp] theorem withCore_input (s : State) (c : CoreState) : (s.withCore c).input = s.input := rfl
@[simp] theorem nextInput_toCoreState (s : State) : s.nextInput.toCoreState = s.toCoreState := rfl
@[simp] theorem nextInput_draws (s : State) : s.nextInput.draws = s.draws + 1 := rfl

end Sys2Proof.Machine.State
end

