-- ==== Sys2Proof/Laws/Ops.lean ====
section
/-! SUPPORT. What each shared operation of Machine/Ops.lean can do, said once. -/

namespace Sys2Proof.Machine

namespace CoreState

/-! The fields an update of registers or of the program counter leaves alone. -/

section writeV
variable (s : CoreState) (i : Reg) (v : Byte)
@[simp] theorem writeV_mem : (s.writeV i v).mem = s.mem := rfl
@[simp] theorem writeV_I : (s.writeV i v).I = s.I := rfl
@[simp] theorem writeV_pc : (s.writeV i v).pc = s.pc := rfl
@[simp] theorem writeV_Stack : (s.writeV i v).Stack = s.Stack := rfl
@[simp] theorem writeV_SP : (s.writeV i v).SP = s.SP := rfl
@[simp] theorem writeV_DT : (s.writeV i v).DT = s.DT := rfl
@[simp] theorem writeV_ST : (s.writeV i v).ST = s.ST := rfl
@[simp] theorem writeV_FB : (s.writeV i v).FB = s.FB := rfl
@[simp] theorem writeV_KEY : (s.writeV i v).KEY = s.KEY := rfl
@[simp] theorem writeV_DIRTY : (s.writeV i v).DIRTY = s.DIRTY := rfl
end writeV

section writeFlagged
variable (s : CoreState) (x : Reg) (v flag : Byte)
@[simp] theorem writeFlagged_mem : (s.writeFlagged x v flag).mem = s.mem := rfl
@[simp] theorem writeFlagged_I : (s.writeFlagged x v flag).I = s.I := rfl
@[simp] theorem writeFlagged_pc : (s.writeFlagged x v flag).pc = s.pc := rfl
@[simp] theorem writeFlagged_Stack : (s.writeFlagged x v flag).Stack = s.Stack := rfl
@[simp] theorem writeFlagged_SP : (s.writeFlagged x v flag).SP = s.SP := rfl
@[simp] theorem writeFlagged_DT : (s.writeFlagged x v flag).DT = s.DT := rfl
@[simp] theorem writeFlagged_ST : (s.writeFlagged x v flag).ST = s.ST := rfl
@[simp] theorem writeFlagged_FB : (s.writeFlagged x v flag).FB = s.FB := rfl
@[simp] theorem writeFlagged_KEY : (s.writeFlagged x v flag).KEY = s.KEY := rfl
@[simp] theorem writeFlagged_DIRTY : (s.writeFlagged x v flag).DIRTY = s.DIRTY := rfl
end writeFlagged

section writeFirstRegs
variable (s : CoreState) (bytes : List Byte)
@[simp] theorem writeFirstRegs_mem : (s.writeFirstRegs bytes).mem = s.mem := rfl
@[simp] theorem writeFirstRegs_I : (s.writeFirstRegs bytes).I = s.I := rfl
@[simp] theorem writeFirstRegs_pc : (s.writeFirstRegs bytes).pc = s.pc := rfl
@[simp] theorem writeFirstRegs_Stack : (s.writeFirstRegs bytes).Stack = s.Stack := rfl
@[simp] theorem writeFirstRegs_SP : (s.writeFirstRegs bytes).SP = s.SP := rfl
@[simp] theorem writeFirstRegs_DT : (s.writeFirstRegs bytes).DT = s.DT := rfl
@[simp] theorem writeFirstRegs_ST : (s.writeFirstRegs bytes).ST = s.ST := rfl
@[simp] theorem writeFirstRegs_FB : (s.writeFirstRegs bytes).FB = s.FB := rfl
@[simp] theorem writeFirstRegs_KEY : (s.writeFirstRegs bytes).KEY = s.KEY := rfl
@[simp] theorem writeFirstRegs_DIRTY : (s.writeFirstRegs bytes).DIRTY = s.DIRTY := rfl
end writeFirstRegs

section advance
variable (s : CoreState)
@[simp] theorem advance_mem : (s.advance).mem = s.mem := rfl
@[simp] theorem advance_V : (s.advance).V = s.V := rfl
@[simp] theorem advance_I : (s.advance).I = s.I := rfl
@[simp] theorem advance_Stack : (s.advance).Stack = s.Stack := rfl
@[simp] theorem advance_SP : (s.advance).SP = s.SP := rfl
@[simp] theorem advance_DT : (s.advance).DT = s.DT := rfl
@[simp] theorem advance_ST : (s.advance).ST = s.ST := rfl
@[simp] theorem advance_FB : (s.advance).FB = s.FB := rfl
@[simp] theorem advance_KEY : (s.advance).KEY = s.KEY := rfl
@[simp] theorem advance_DIRTY : (s.advance).DIRTY = s.DIRTY := rfl
end advance

section skipIf
variable (s : CoreState) (c : Bool)
@[simp] theorem skipIf_mem : (s.skipIf c).mem = s.mem := rfl
@[simp] theorem skipIf_V : (s.skipIf c).V = s.V := rfl
@[simp] theorem skipIf_I : (s.skipIf c).I = s.I := rfl
@[simp] theorem skipIf_Stack : (s.skipIf c).Stack = s.Stack := rfl
@[simp] theorem skipIf_SP : (s.skipIf c).SP = s.SP := rfl
@[simp] theorem skipIf_DT : (s.skipIf c).DT = s.DT := rfl
@[simp] theorem skipIf_ST : (s.skipIf c).ST = s.ST := rfl
@[simp] theorem skipIf_FB : (s.skipIf c).FB = s.FB := rfl
@[simp] theorem skipIf_KEY : (s.skipIf c).KEY = s.KEY := rfl
@[simp] theorem skipIf_DIRTY : (s.skipIf c).DIRTY = s.DIRTY := rfl
end skipIf

@[simp] theorem advance_pc (s : CoreState) : s.advance.pc = s.pc + 2 := rfl

@[simp] theorem skipIf_pc (s : CoreState) (c : Bool) : (s.skipIf c).pc = s.pc + if c then 4 else 2 := rfl

/-! Reading a register depends on the registers alone. -/

section readV
variable (s : CoreState) (r : Reg)
@[simp] theorem readV_setMem (v : Memory) : (s.setMem v).readV r = s.readV r := rfl
@[simp] theorem readV_setI (v : Word) : (s.setI v).readV r = s.readV r := rfl
@[simp] theorem readV_setPc (v : Word) : (s.setPc v).readV r = s.readV r := rfl
@[simp] theorem readV_setStack (v : Vector Word 16) : (s.setStack v).readV r = s.readV r := rfl
@[simp] theorem readV_setSP (v : Fin 17) : (s.setSP v).readV r = s.readV r := rfl
@[simp] theorem readV_setDT (v : Byte) : (s.setDT v).readV r = s.readV r := rfl
@[simp] theorem readV_setST (v : Byte) : (s.setST v).readV r = s.readV r := rfl
@[simp] theorem readV_setFB (v : Frame) : (s.setFB v).readV r = s.readV r := rfl
@[simp] theorem readV_setKEY (v : Vector Bool 16) : (s.setKEY v).readV r = s.readV r := rfl
@[simp] theorem readV_setDIRTY (v : Bool) : (s.setDIRTY v).readV r = s.readV r := rfl
@[simp] theorem keyDown_setMem (v : Memory) : (s.setMem v).keyDown r = s.keyDown r := rfl
@[simp] theorem keyDown_setI (v : Word) : (s.setI v).keyDown r = s.keyDown r := rfl
@[simp] theorem keyDown_setPc (v : Word) : (s.setPc v).keyDown r = s.keyDown r := rfl
@[simp] theorem keyDown_setStack (v : Vector Word 16) : (s.setStack v).keyDown r = s.keyDown r := rfl
@[simp] theorem keyDown_setSP (v : Fin 17) : (s.setSP v).keyDown r = s.keyDown r := rfl
@[simp] theorem keyDown_setDT (v : Byte) : (s.setDT v).keyDown r = s.keyDown r := rfl
@[simp] theorem keyDown_setST (v : Byte) : (s.setST v).keyDown r = s.keyDown r := rfl
@[simp] theorem keyDown_setFB (v : Frame) : (s.setFB v).keyDown r = s.keyDown r := rfl
@[simp] theorem keyDown_setDIRTY (v : Bool) : (s.setDIRTY v).keyDown r = s.keyDown r := rfl
@[simp] theorem keyDown_setV (v : Vector Byte 16) : (s.setV v).keyDown r = s.keyDown r := rfl
@[simp] theorem readV_advance : s.advance.readV r = s.readV r := rfl
@[simp] theorem readV_skipIf (c : Bool) : (s.skipIf c).readV r = s.readV r := rfl
@[simp] theorem keyDown_advance : s.advance.keyDown r = s.keyDown r := rfl
@[simp] theorem keyDown_skipIf (c : Bool) : (s.skipIf c).keyDown r = s.keyDown r := rfl
@[simp] theorem keyDown_writeV (i : Reg) (v : Byte) : (s.writeV i v).keyDown r = s.keyDown r := rfl
@[simp] theorem keyDown_writeFlagged (x : Reg) (v flag : Byte) :
    (s.writeFlagged x v flag).keyDown r = s.keyDown r := rfl
end readV

/-- A register reads what was written to it, another reads as before (R21: no two alias). -/
@[simp] theorem readV_writeV (s : CoreState) (i : Reg) (v : Byte) (r : Reg) :
    (s.writeV i v).readV r = if r = i then v else s.readV r := by
  simp only [readV, writeV, setV_V, Fin.getElem_fin, Vector.getElem_set]
  by_cases h : r = i
  · simp [h]
  · rw [if_neg (fun e => h (Fin.ext e.symm)), if_neg h]

/-- The flag is written last (R123). -/
@[simp] theorem readV_writeFlagged (s : CoreState) (x : Reg) (v flag : Byte) (r : Reg) :
    (s.writeFlagged x v flag).readV r = if r = VF then flag else if r = x then v else s.readV r := by
  simp [writeFlagged]

@[simp] theorem length_firstRegs (s : CoreState) (x : Reg) : (s.firstRegs (x.val + 1)).length = x.val + 1 := by
  have := x.isLt
  simp [firstRegs]

theorem getElem_firstRegs (s : CoreState) (n k : Nat) (h : k < (s.firstRegs n).length) :
    (s.firstRegs n)[k] = s.readV ⟨k, by simp [firstRegs] at h; omega⟩ := by
  simp [firstRegs, readV]

end CoreState

/-- What `V[k]` holds after the bytes are written from `V[i]` up. -/
theorem getElem_fillRegs (V : Vector Byte 16) (i : Nat) (bytes : List Byte) (k : Nat) (hk : k < 16) :
    (fillRegs V i bytes)[k] = if h : i ≤ k ∧ k - i < bytes.length then bytes[k - i]'h.2 else V[k] := by
  induction bytes generalizing V i with
  | nil => simp [fillRegs]
  | cons b rest ih =>
    rw [fillRegs, ih]
    rcases lt_trichotomy k i with hlt | rfl | hgt
    · rw [dif_neg (by omega), dif_neg (by omega), Vector.getElem_setIfInBounds_ne _ (by omega)]
    · rw [dif_neg (by omega), dif_pos ⟨le_refl _, by simp⟩]
      simp
    · obtain ⟨j, rfl⟩ : ∃ j, k = i + 1 + j := ⟨k - i - 1, by omega⟩
      have e1 : i + 1 + j - (i + 1) = j := by omega
      have e2 : i + 1 + j - i = j + 1 := by omega
      by_cases hj : j < rest.length
      · rw [dif_pos ⟨by omega, by omega⟩, dif_pos ⟨by omega, by simp only [List.length_cons]; omega⟩]
        simp [e1, e2]
      · rw [dif_neg (by omega), dif_neg (by simp only [List.length_cons]; omega),
          Vector.getElem_setIfInBounds_ne _ (by omega)]

namespace CoreState

/-- `V[r]` after the bytes are written to `V[0]`, `V[1]`, and so on. -/
theorem readV_writeFirstRegs (s : CoreState) (bytes : List Byte) (r : Reg) :
    (s.writeFirstRegs bytes).readV r = if h : r.val < bytes.length then bytes[r.val] else s.readV r := by
  simp only [readV, writeFirstRegs, setV_V, Fin.getElem_fin, getElem_fillRegs]
  simp

/-! Memory accesses (R52, R59). -/

theorem loadBytes_ok {s : CoreState} {a len : Nat} (h : inRange a len) : s.loadBytes a len = .ok (s.mem.readBytes a len) :=
  if_pos h

theorem loadBytes_fault {s : CoreState} {a len : Nat} (h : ¬ inRange a len) :
    s.loadBytes a len = .error .memoryOutOfRange :=
  if_neg h

theorem storeBytes_ok {s : CoreState} {a : Nat} {bytes : List Byte} (h : inRange a bytes.length) :
    s.storeBytes a bytes = .ok (s.setMem (s.mem.writeBytes a bytes)) :=
  if_pos h

theorem storeBytes_fault {s : CoreState} {a : Nat} {bytes : List Byte} (h : ¬ inRange a bytes.length) :
    s.storeBytes a bytes = .error .memoryOutOfRange :=
  if_neg h

/-- Everything a multi-byte store can do. -/
theorem storeBytes_cases (s : CoreState) (a : Nat) (bytes : List Byte) :
    (inRange a bytes.length ∧ s.storeBytes a bytes = .ok (s.setMem (s.mem.writeBytes a bytes))) ∨
    (¬ inRange a bytes.length ∧ s.storeBytes a bytes = .error .memoryOutOfRange) := by
  by_cases h : inRange a bytes.length
  · exact .inl ⟨h, storeBytes_ok h⟩
  · exact .inr ⟨h, storeBytes_fault h⟩

/-- Everything a multi-byte load can do. -/
theorem loadBytes_cases (s : CoreState) (a len : Nat) :
    (inRange a len ∧ s.loadBytes a len = .ok (s.mem.readBytes a len)) ∨
    (¬ inRange a len ∧ s.loadBytes a len = .error .memoryOutOfRange) := by
  by_cases h : inRange a len
  · exact .inl ⟨h, loadBytes_ok h⟩
  · exact .inr ⟨h, loadBytes_fault h⟩

/-- A store in range keeps the canonical form of memory. -/
theorem storeBytes_wf {s t : CoreState} {a : Nat} {bytes : List Byte} (hs : s.mem.wf)
    (h : s.storeBytes a bytes = .ok t) : t.mem.wf := by
  rcases s.storeBytes_cases a bytes with ⟨hr, e⟩ | ⟨-, e⟩
  · rw [e, Except.ok.injEq] at h
    subst h
    exact Memory.writeBytes_wf hs (hr.imp List.eq_nil_of_length_eq_zero id)
  · rw [e] at h
    cases h

/-! The return stack (R94, R96). -/

/-- Everything a push can do. -/
theorem push_cases (s : CoreState) (v : Word) :
    (∃ h : s.SP.val < 16, s.push v = .ok ((s.setStack (s.Stack.set s.SP.val v)).setSP ⟨s.SP.val + 1, by omega⟩)) ∨
    (s.SP = 16 ∧ s.push v = .error .stackOverflow) := by
  by_cases h : s.SP.val < 16
  · exact .inl ⟨h, dif_pos h⟩
  · exact .inr ⟨Fin.ext (by have := s.SP.isLt; show s.SP.val = 16; omega), dif_neg h⟩

/-- Everything a pop can do. -/
theorem pop_cases (s : CoreState) :
    (∃ i : Fin 16, s.SP.val = i.val + 1 ∧ s.pop = .ok (s.Stack[i], s.setSP ⟨i.val, by omega⟩)) ∨
    (s.SP = 0 ∧ s.pop = .error .stackUnderflow) := by
  by_cases h : 0 < s.SP.val
  · have := s.SP.isLt
    refine .inl ⟨⟨s.SP.val - 1, by omega⟩, by show s.SP.val = s.SP.val - 1 + 1; omega, dif_pos h⟩
  · exact .inr ⟨Fin.ext (by show s.SP.val = 0; omega), dif_neg h⟩

/-! Fetch and decode (R90). -/

/-- Everything a fetch can do (R52, R54). -/
theorem fetch_cases (s : CoreState) :
    (s.pc.toNat ≤ 0xFFE ∧ s.fetch = .ok (joinBytes (s.mem.read s.pc.toNat) (s.mem.read (s.pc.toNat + 1)))) ∨
    (0xFFF ≤ s.pc.toNat ∧ s.fetch = .error .memoryOutOfRange) := by
  by_cases h : inRange s.pc.toNat 2
  · exact .inl ⟨by unfold inRange Config.memSize at h; omega, if_pos h⟩
  · exact .inr ⟨by unfold inRange Config.memSize at h; omega, if_neg h⟩

theorem fetch_ok {s : CoreState} (h : s.pc.toNat ≤ 0xFFE) :
    s.fetch = .ok (joinBytes (s.mem.read s.pc.toNat) (s.mem.read (s.pc.toNat + 1))) := by
  rcases s.fetch_cases with ⟨-, e⟩ | ⟨h', -⟩
  · exact e
  · omega

/-- An instruction is found exactly when the fetch gives its word. -/
theorem nextInstr_eq_ok {s : CoreState} {i : Instr} :
    s.nextInstr = .ok i ↔ ∃ op, s.fetch = .ok op ∧ decodeWord op = some i := by
  unfold nextInstr
  rcases hf : s.fetch with f | op
  · simp
  · rcases hd : decodeWord op with _ | j <;> simp [hd]

/-! The keypad (R153). -/

/-- The least key down, if any. -/
theorem firstKeyDown_eq_some {s : CoreState} {k : Key} :
    s.firstKeyDown = some k ↔ s.keyDown k = true ∧ ∀ j : Key, j < k → s.keyDown j = false := by
  unfold firstKeyDown
  constructor
  · intro h
    rw [List.find?_eq_some_iff_append] at h
    obtain ⟨hk, as, bs, hl, hb⟩ := h
    refine ⟨hk, fun j hj => ?_⟩
    have hlen : as.length < 16 := by
      have := congrArg List.length hl
      simp at this
      omega
    have hkas : k.val = as.length := by
      have h1 : ([0, 1, 2, 3, 4, 5, 6, 7, 8, 9, 10, 11, 12, 13, 14, 15] : List Key)[as.length]? = some k := by
        rw [hl]; simp
      have h2 : ∀ n : Fin 16, ([0, 1, 2, 3, 4, 5, 6, 7, 8, 9, 10, 11, 12, 13, 14, 15] : List Key)[n.val]? = some n := by
        decide
      rw [h2 ⟨as.length, hlen⟩] at h1
      exact (congrArg Fin.val (Option.some.inj h1)).symm
    have hjas : j ∈ as := by
      have h2 : ∀ n : Fin 16, ([0, 1, 2, 3, 4, 5, 6, 7, 8, 9, 10, 11, 12, 13, 14, 15] : List Key)[n.val]? = some n := by
        decide
      have h3 := h2 j
      rw [hl, List.getElem?_append_left (by rw [← hkas]; exact hj)] at h3
      exact List.mem_of_getElem? h3
    simpa using hb j hjas
  · rintro ⟨hk, hlt⟩
    revert hk hlt
    generalize s.keyDown = p
    intro hk hlt
    fin_cases k <;> simp_all [Fin.forall_fin_succ]

theorem firstKeyDown_eq_none {s : CoreState} : s.firstKeyDown = none ↔ ∀ k : Key, s.keyDown k = false := by
  unfold firstKeyDown
  rw [List.find?_eq_none]
  constructor
  · intro h k
    simpa using h k (by fin_cases k <;> decide)
  · intro h k _
    simp [h k]

end CoreState

end Sys2Proof.Machine
end

