-- ==== Sys2Proof/Laws/Display.lean ====
section
/-! SUPPORT. Pixels and drawing (spec/43_display.md R142, R143): one pixel after a toggle, the edge rule in the spec's own
form, and what a whole sprite does to every pixel. -/

namespace Sys2Proof.Machine

@[simp] theorem pixel_blank (x : Fin 64) (y : Fin 32) : Frame.blank.pixel x y = false := by
  simp [Frame.blank, Frame.pixel]

/-- A toggle changes its own pixel and no other. -/
theorem pixel_toggle (fb : Frame) (px : Fin 64) (py : Fin 32) (x : Fin 64) (y : Fin 32) :
    (fb.toggle px py).pixel x y = if x = px ∧ y = py then !fb.pixel x y else fb.pixel x y := by
  simp only [Frame.toggle, Frame.pixel, Fin.getElem_fin, Vector.getElem_set]
  by_cases hy : y = py
  · subst hy
    by_cases hx : x = px
    · subst hx; simp
    · have : ¬ px.val = x.val := fun e => hx (Fin.ext e.symm)
      simp [hx, this]
  · have : ¬ py.val = y.val := fun e => hy (Fin.ext e.symm)
    simp [hy, this]

/-- The edge rule as R143 writes it. -/
theorem target_eq (edge : Config.SpriteEdge) (X Y : Nat) (px : Fin 64) (py : Fin 32) :
    target edge X Y = some (px, py) ↔
      match edge with
      | .wrap => X % 64 = px.val ∧ Y % 32 = py.val
      | .clip => X = px.val ∧ Y = py.val := by
  unfold target
  have hpx := px.isLt
  have hpy := py.isLt
  by_cases h : X < 64 ∧ Y < 32
  · rw [dif_pos h, Option.some.injEq, Prod.mk.injEq, Fin.ext_iff, Fin.ext_iff]
    cases edge
    · simp only [Nat.mod_eq_of_lt h.1, Nat.mod_eq_of_lt h.2]
    · rfl
  · rw [dif_neg h]
    cases edge
    · simp only [Option.some.injEq, Prod.mk.injEq, Fin.ext_iff]
    · simp only [reduceCtorEq, false_iff]
      omega

/-- What plotting one set sprite bit does. -/
theorem plot_spec (d : Drawing) (edge : Config.SpriteEdge) (X Y : Nat) :
    (∀ x y, (d.plot edge X Y).frame.pixel x y = (d.frame.pixel x y ^^ decide (target edge X Y = some (x, y)))) ∧
    ((d.plot edge X Y).collision = true ↔
      d.collision = true ∨ ∃ x y, target edge X Y = some (x, y) ∧ d.frame.pixel x y = true) := by
  unfold Drawing.plot
  rcases target edge X Y with _ | ⟨px, py⟩
  · simp
  · refine ⟨fun x y => ?_, ?_⟩
    · simp only [pixel_toggle, Option.some.injEq, Prod.mk.injEq]
      by_cases h : x = px ∧ y = py
      · obtain ⟨rfl, rfl⟩ := h
        simp
      · have : ¬ (px = x ∧ py = y) := fun e => h ⟨e.1.symm, e.2.symm⟩
        simp [h, this]
    · simp only [Option.some.injEq, Prod.mk.injEq, Bool.or_eq_true]
      constructor
      · rintro (h | h)
        · exact .inl h
        · exact .inr ⟨px, py, ⟨rfl, rfl⟩, h⟩
      · rintro (h | ⟨x, y, ⟨rfl, rfl⟩, h⟩)
        · exact .inl h
        · exact .inr h

/-! A sprite as the list of the positions of its set bits. -/

/-- Plotting a list of positions. -/
def Drawing.plotAll (d : Drawing) (edge : Config.SpriteEdge) (ps : List (Nat × Nat)) : Drawing :=
  ps.foldl (fun d p => d.plot edge p.1 p.2) d

/-- The positions of the set bits of sprite rows drawn from `(X, Y)`. -/
def spritePositions (X Y : Nat) : List Byte → List (Nat × Nat)
  | [] => []
  | b :: rest => (([0, 1, 2, 3, 4, 5, 6, 7].filter (spriteBit b)).map fun c => (X + c, Y)) ++
      spritePositions X (Y + 1) rest

/-- Drawing a sprite is plotting the positions of its set bits. -/
theorem drawRows_eq_plotAll (d : Drawing) (edge : Config.SpriteEdge) (X Y : Nat) (rows : List Byte) :
    d.drawRows edge X Y rows = d.plotAll edge (spritePositions X Y rows) := by
  induction rows generalizing d Y with
  | nil => rfl
  | cons b rest ih =>
    rw [Drawing.drawRows, ih, spritePositions, Drawing.plotAll, Drawing.plotAll, List.foldl_append, List.foldl_map,
      List.foldl_filter]
    rfl

theorem mem_spritePositions {X Y : Nat} {rows : List Byte} {p : Nat × Nat} :
    p ∈ spritePositions X Y rows ↔
      ∃ (r c : Nat) (h : r < rows.length), c < 8 ∧ spriteBit rows[r] c = true ∧ p = (X + c, Y + r) := by
  induction rows generalizing Y with
  | nil => simp [spritePositions]
  | cons b rest ih =>
    rw [spritePositions, List.mem_append, ih]
    constructor
    · rintro (h | ⟨r, c, h, hc, hb, rfl⟩)
      · obtain ⟨c, hc, rfl⟩ := List.mem_map.1 h
        rw [List.mem_filter] at hc
        have h8 : c < 8 := by
          have := hc.1
          simp only [List.mem_cons, List.not_mem_nil, or_false] at this
          omega
        exact ⟨0, c, by simp, h8, hc.2, rfl⟩
      · exact ⟨r + 1, c, by simpa using h, hc, hb, by rw [show Y + 1 + r = Y + (r + 1) by omega]⟩
    · rintro ⟨r, c, h, hc, hb, rfl⟩
      rcases r with _ | r
      · refine .inl (List.mem_map.2 ⟨c, List.mem_filter.2 ⟨?_, hb⟩, rfl⟩)
        interval_cases c <;> simp
      · exact .inr ⟨r, c, by simpa using h, hc, hb, by rw [show Y + 1 + r = Y + (r + 1) by omega]⟩

theorem nodup_spritePositions (X Y : Nat) (rows : List Byte) : (spritePositions X Y rows).Nodup := by
  induction rows generalizing Y with
  | nil => exact List.nodup_nil
  | cons b rest ih =>
    rw [spritePositions, List.nodup_append]
    refine ⟨?_, ih _, ?_⟩
    · refine List.Nodup.map (fun c c' h => ?_) (List.Nodup.filter _ (by decide))
      have := (Prod.mk.injEq _ _ _ _ ▸ h : X + c = X + c' ∧ Y = Y).1
      omega
    · rintro p hp q hq rfl
      obtain ⟨c, -, rfl⟩ := List.mem_map.1 hp
      obtain ⟨r, c', -, -, -, e⟩ := mem_spritePositions.1 hq
      have := congrArg Prod.snd e
      simp only at this
      omega

/-- A sprite never overlaps itself: "every set sprite bit lands on a distinct pixel" (R142 (b)). -/
theorem spritePositions_distinct (edge : Config.SpriteEdge) (X Y : Nat) {rows : List Byte} (hn : rows.length ≤ 32) :
    (spritePositions X Y rows).Pairwise
      fun p q => ∀ t, target edge p.1 p.2 = some t → target edge q.1 q.2 ≠ some t := by
  refine List.Pairwise.imp_of_mem ?_ (nodup_spritePositions X Y rows)
  rintro p q hp hq hne ⟨px, py⟩ h1 h2
  obtain ⟨r, c, hr, hc, -, rfl⟩ := mem_spritePositions.1 hp
  obtain ⟨r', c', hr', hc', -, rfl⟩ := mem_spritePositions.1 hq
  rw [target_eq] at h1 h2
  refine hne ?_
  rw [Prod.mk.injEq]
  cases edge <;> simp only at h1 h2 <;> omega

/-- Plotting positions with distinct targets toggles exactly the targets, and collides where one was set. -/
theorem plotAll_spec (d : Drawing) (edge : Config.SpriteEdge) (ps : List (Nat × Nat))
    (hd : ps.Pairwise fun p q => ∀ t, target edge p.1 p.2 = some t → target edge q.1 q.2 ≠ some t) :
    (∀ x y, (d.plotAll edge ps).frame.pixel x y =
      (d.frame.pixel x y ^^ decide (∃ p ∈ ps, target edge p.1 p.2 = some (x, y)))) ∧
    ((d.plotAll edge ps).collision = true ↔
      d.collision = true ∨ ∃ x y, (∃ p ∈ ps, target edge p.1 p.2 = some (x, y)) ∧ d.frame.pixel x y = true) := by
  induction ps generalizing d with
  | nil => simp [Drawing.plotAll]
  | cons p rest ih =>
    obtain ⟨hp, hrest⟩ := List.pairwise_cons.1 hd
    obtain ⟨hpix, hcol⟩ := plot_spec d edge p.1 p.2
    obtain ⟨ihpix, ihcol⟩ := ih (d.plot edge p.1 p.2) hrest
    have key : ∀ x y, (∃ q ∈ rest, target edge q.1 q.2 = some (x, y)) → target edge p.1 p.2 ≠ some (x, y) :=
      fun x y ⟨q, hq, hqt⟩ hpt => hp q hq _ hpt hqt
    refine ⟨fun x y => ?_, ?_⟩
    · rw [show d.plotAll edge (p :: rest) = (d.plot edge p.1 p.2).plotAll edge rest from rfl, ihpix, hpix]
      by_cases h1 : target edge p.1 p.2 = some (x, y)
      · have h2 : ¬ ∃ q ∈ rest, target edge q.1 q.2 = some (x, y) := fun h => key x y h h1
        have h3 : ∃ q ∈ p :: rest, target edge q.1 q.2 = some (x, y) := ⟨p, by simp, h1⟩
        simp only [h1, h2, h3, decide_true, decide_false, Bool.xor_false]
      · have h3 : (∃ q ∈ p :: rest, target edge q.1 q.2 = some (x, y)) ↔
            ∃ q ∈ rest, target edge q.1 q.2 = some (x, y) := by simp [h1]
        simp only [h1, h3, decide_false, Bool.xor_false]
    · rw [show d.plotAll edge (p :: rest) = (d.plot edge p.1 p.2).plotAll edge rest from rfl, ihcol, hcol, or_assoc]
      refine or_congr_right ?_
      constructor
      · rintro (⟨x, y, ht, hs⟩ | ⟨x, y, hq, hs⟩)
        · exact ⟨x, y, ⟨p, by simp, ht⟩, hs⟩
        · refine ⟨x, y, hq.imp fun q hq => ⟨by simp [hq.1], hq.2⟩, ?_⟩
          simpa [hpix, key x y hq] using hs
      · rintro ⟨x, y, ⟨q, hq, ht⟩, hs⟩
        rcases List.mem_cons.1 hq with rfl | hq
        · exact .inl ⟨x, y, ht, hs⟩
        · refine .inr ⟨x, y, ⟨q, hq, ht⟩, ?_⟩
          simpa [hpix, key x y ⟨q, hq, ht⟩] using hs

/-- What drawing a whole sprite does to every pixel, and when it collides (R142). -/
theorem drawRows_spec (d : Drawing) (edge : Config.SpriteEdge) (X Y : Nat) {rows : List Byte} (hn : rows.length ≤ 32) :
    (∀ x y, (d.drawRows edge X Y rows).frame.pixel x y =
      (d.frame.pixel x y ^^ decide (∃ p ∈ spritePositions X Y rows, target edge p.1 p.2 = some (x, y)))) ∧
    ((d.drawRows edge X Y rows).collision = true ↔ d.collision = true ∨
      ∃ x y, (∃ p ∈ spritePositions X Y rows, target edge p.1 p.2 = some (x, y)) ∧ d.frame.pixel x y = true) := by
  rw [drawRows_eq_plotAll]
  exact plotAll_spec d edge _ (spritePositions_distinct edge X Y hn)

end Sys2Proof.Machine
end

