-- ==== Sys2Proof/Laws/Exec.lean ====
section
/-! SUPPORT. Everything each instruction that can fault does, in one equation each, the idle and completing `Fx0A`, and
everything a step that answers a next state has done, and which pixels a sprite reaches. The other meanings are one equation already. -/

namespace Sys2Proof.Machine

theorem execLdB_eq (x : Reg) (s : State) :
    execLdB x s = if s.base + 2 ≤ 0xFFF then
      .next (s.withCore (s.setMem (s.mem.writeBytes s.base (bcdDigits (s.readV x)))).advance)
    else .fault .memoryOutOfRange := by
  unfold execLdB
  rcases s.toCoreState.storeBytes_cases s.base (bcdDigits (s.readV x)) with ⟨hr, e⟩ | ⟨hr, e⟩ <;>
    rw [e] <;> simp only [length_bcdDigits, inRange, Config.memSize] at hr
  · rw [if_pos (by omega)]
  · rw [if_neg (by omega)]
    rfl

theorem execStRegs_eq (x : Reg) (s : State) :
    execStRegs x s = if s.base + x.val ≤ 0xFFF then
      .next (s.withCore (s.setMem (s.mem.writeBytes s.base (s.firstRegs (x.val + 1)))).advance)
    else .fault .memoryOutOfRange := by
  unfold execStRegs
  rcases s.toCoreState.storeBytes_cases s.base (s.firstRegs (x.val + 1)) with ⟨hr, e⟩ | ⟨hr, e⟩ <;>
    rw [e] <;> simp only [CoreState.length_firstRegs, inRange, Config.memSize] at hr
  · rw [if_pos (by omega)]
  · rw [if_neg (by omega)]
    rfl

theorem execLdRegs_eq (x : Reg) (s : State) :
    execLdRegs x s = if s.base + x.val ≤ 0xFFF then
      .next (s.withCore (s.writeFirstRegs (s.mem.readBytes s.base (x.val + 1))).advance)
    else .fault .memoryOutOfRange := by
  unfold execLdRegs
  rcases s.toCoreState.loadBytes_cases s.base (x.val + 1) with ⟨hr, e⟩ | ⟨hr, e⟩ <;>
    rw [e] <;> simp only [inRange, Config.memSize] at hr
  · rw [if_pos (by omega)]
  · rw [if_neg (by omega)]
    rfl

theorem execDrw_eq (x y : Reg) (n : Nat) (s : State) :
    execDrw x y n s = if n = 0 ∨ s.base + n - 1 ≤ 0xFFF then
      .next (s.withCore (drawSprite Config.spriteEdge x y (s.mem.readBytes s.base n) s.toCoreState))
    else .fault .memoryOutOfRange := by
  unfold execDrw
  rcases s.toCoreState.loadBytes_cases s.base n with ⟨hr, e⟩ | ⟨hr, e⟩ <;>
    rw [e] <;> simp only [inRange, Config.memSize] at hr
  · rw [if_pos (by omega)]
  · rw [if_neg (by omega)]
    rfl

theorem execCall_eq (nnn : BitVec 12) (s : State) :
    execCall nnn s = if h : s.SP.val < 16 then
      .next (s.withCore
        (((s.setStack (s.Stack.set s.SP.val s.pc)).setSP ⟨s.SP.val + 1, by omega⟩).setPc (zext16 nnn)))
    else .fault .stackOverflow := by
  unfold execCall
  rcases s.toCoreState.push_cases s.pc with ⟨hr, e⟩ | ⟨hr, e⟩ <;> rw [e]
  · rw [dif_pos hr]
  · rw [dif_neg (by rw [hr]; decide)]
    rfl

theorem execRet_of_entry (s : State) (i : Fin 16) (h : s.SP.val = i.val + 1) :
    execRet s = .next (s.withCore ((s.setSP ⟨i.val, by omega⟩).setPc (s.Stack[i] + 2))) := by
  unfold execRet
  rcases s.toCoreState.pop_cases with ⟨j, hj, e⟩ | ⟨hr, -⟩
  · obtain rfl : i = j := Fin.ext (by omega)
    rw [e]
  · rw [hr] at h
    exact absurd h (by simp)

theorem execRet_of_empty (s : State) (h : s.SP = 0) : execRet s = .fault .stackUnderflow := by
  unfold execRet
  rcases s.toCoreState.pop_cases with ⟨j, hj, -⟩ | ⟨-, e⟩
  · rw [h] at hj
    exact absurd hj (by simp)
  · rw [e]
    rfl

/-- Everything a return does. -/
theorem execRet_cases (s : State) :
    (∃ i : Fin 16, s.SP.val = i.val + 1 ∧
      execRet s = .next (s.withCore ((s.setSP ⟨i.val, by omega⟩).setPc (s.Stack[i] + 2)))) ∨
    (s.SP = 0 ∧ execRet s = .fault .stackUnderflow) := by
  rcases s.toCoreState.pop_cases with ⟨i, hi, -⟩ | ⟨h, -⟩
  · exact .inl ⟨i, hi, execRet_of_entry s i hi⟩
  · exact .inr ⟨h, execRet_of_empty s h⟩

/-- Everything a key wait does. -/
theorem execLdVxK_cases (x : Reg) (s : State) :
    (∃ k : Key, s.firstKeyDown = some k ∧ execLdVxK x s = .next (s.withCore (s.writeV x (BitVec.ofNat 8 k.val)).advance)) ∨
    (s.firstKeyDown = none ∧ execLdVxK x s = .next s) := by
  unfold execLdVxK
  rcases h : s.firstKeyDown with _ | k
  · exact .inr ⟨rfl, rfl⟩
  · exact .inl ⟨k, rfl, rfl⟩

/-- A step with an instruction to execute is that instruction's execution. -/
theorem step_eq_exec {s : State} {i : Instr} (h : s.nextInstr = .ok i) : step s = exec i s := by
  unfold step
  rw [h]

/-- Everything a step that answers a next state has done (R90). -/
theorem step_next {s t : State} (h : step s = .next t) :
    s.pc.toNat ≤ 0xFFE ∧ ∃ i, s.nextInstr = .ok i ∧
      decodeWord (joinBytes (s.mem.read s.pc.toNat) (s.mem.read (s.pc.toNat + 1))) = some i ∧ exec i s = .next t := by
  unfold step at h
  rcases hn : s.nextInstr with f | i
  · rw [hn] at h
    cases h
  · rw [hn] at h
    obtain ⟨op, ho, hd⟩ := CoreState.nextInstr_eq_ok.1 hn
    rcases s.toCoreState.fetch_cases with ⟨h', e⟩ | ⟨-, e⟩ <;> rw [ho] at e <;> cases e
    exact ⟨h', i, rfl, hd, h⟩

/-- A run of one step more. -/
theorem run_succ_next {M : Host.Core} {n : Nat} {s t : M.State} (h : M.step s = .next t) :
    M.run (n + 1) s = M.run n t := by
  simp only [Host.Core.run, h]

/-! Sprites. -/

/-- The pixels `Dxyn` toggles are those the sprite covers in the spec's formulas (R141 to R143). -/
theorem spriteCovers_iff (edge : Config.SpriteEdge) (s : State) (x y : Reg) (n : Nat) (px : Fin 64) (py : Fin 32) :
    spriteCovers edge s x y n px py ↔
      ∃ p ∈ spritePositions (s.readV x).toNat (s.readV y).toNat (s.mem.readBytes s.base n),
        target edge p.1 p.2 = some (px, py) := by
  unfold spriteCovers
  constructor
  · rintro ⟨r, c, hr, hc, hb, ht⟩
    refine ⟨_, mem_spritePositions.2 ⟨r, c, by simpa using hr, hc, ?_, rfl⟩, (target_eq _ _ _ _ _).2 ht⟩
    rw [Memory.getElem_readBytes]
    exact hb
  · rintro ⟨p, hp, ht⟩
    obtain ⟨r, c, hr, hc, hb, rfl⟩ := mem_spritePositions.1 hp
    rw [Memory.getElem_readBytes] at hb
    exact ⟨r, c, by simpa using hr, hc, hb, (target_eq _ _ _ _ _).1 ht⟩

/-! Frames. -/

theorem coreUnchanged_refl (l : List Field) (s : CoreState) : coreUnchanged l s s := by
  intro f _
  cases f <;> simp [agreeOn]

theorem unchanged_refl (l : List Field) (s : State) : Unchanged l s s := ⟨coreUnchanged_refl l _, rfl⟩

theorem coreUnchanged_mono {l l' : List Field} {s t : CoreState} (h : coreUnchanged l s t) (hl : l ⊆ l') :
    coreUnchanged l' s t :=
  fun f hf => h f fun hm => hf (hl hm)

theorem unchanged_mono {l l' : List Field} {s t : State} (h : Unchanged l s t) (hl : l ⊆ l') : Unchanged l' s t :=
  ⟨coreUnchanged_mono h.1 hl, h.2⟩

/-- An instruction that sets the core to `c` changes what `c` changes. -/
theorem unchanged_withCore {l : List Field} {s : State} {c : CoreState} (h : coreUnchanged l s.toCoreState c) :
    Unchanged l s (s.withCore c) := ⟨h, rfl⟩

end Sys2Proof.Machine
end

