-- ==== Sys2Proof/Laws/Operations.lean ====
section
/-! SUPPORT. What the operations on the core do, and that the step of the host is the step of the core on its own input byte. -/

namespace Sys2Proof.Machine

/-- Everything a program load can do (R192, R165). -/
theorem opLoadProgram_cases (bytes : List Byte) (s : CoreState) :
    (bytes.length ≤ 3584 ∧ opLoadProgram bytes s = .ok (s.setMem (s.mem.writeBytes Config.progBase bytes))) ∨
    (3584 < bytes.length ∧ opLoadProgram bytes s = .error .programTooLarge) := by
  by_cases h : bytes.length ≤ 3584
  · exact .inl ⟨h, if_pos (decide_eq_true h)⟩
  · exact .inr ⟨by omega, if_neg fun e => h (of_decide_eq_true e)⟩

/-- One count is a truncated subtraction (R171: "clamped at 0"). -/
theorem toNat_countDown (v : Byte) : (countDown v).toNat = v.toNat - 1 := by
  have := v.isLt
  unfold countDown
  split
  · rw [BitVec.toNat_sub, show (1 : Byte).toNat = 1 from rfl]
    omega
  · omega

@[simp] theorem opTick_DT (s : CoreState) : (opTick s).DT = countDown s.DT := rfl

@[simp] theorem opTick_ST (s : CoreState) : (opTick s).ST = countDown s.ST := rfl

/-- Every instruction does to the core what it does with the same input and any other number of inputs used before. -/
theorem coreOutcome_exec (i : Instr) (s : State) (n : Nat) :
    coreOutcome (exec i s) = coreOutcome (execWith s.input i ⟨s.toCoreState, n⟩) := by
  cases i
  case ret =>
    simp only [execWith, exec, execRet]
    rcases s.toCoreState.pop with f | ⟨v, t⟩ <;> rfl
  case call nnn =>
    simp only [execWith, exec, execCall]
    rcases s.toCoreState.push s.pc with f | t <;> rfl
  case drw x y k =>
    simp only [execWith, exec, execDrw]
    rcases s.toCoreState.loadBytes s.base k with f | b <;> rfl
  case ldVxK x =>
    simp only [execWith, exec, execLdVxK]
    rcases s.toCoreState.firstKeyDown with _ | k <;> rfl
  case ldB x =>
    simp only [execWith, exec, execLdB]
    rcases s.toCoreState.storeBytes s.base (bcdDigits (s.readV x)) with f | t <;> rfl
  case stRegs x =>
    simp only [execWith, exec, execStRegs]
    rcases s.toCoreState.storeBytes s.base (s.firstRegs (x.val + 1)) with f | t <;> rfl
  case ldRegs x =>
    simp only [execWith, exec, execLdRegs]
    rcases s.toCoreState.loadBytes s.base (x.val + 1) with f | b <;> rfl
  all_goals rfl

/-- The host's step is the core's `step(rnd)` with the input beside the core. -/
theorem step_eq_coreStep (s : State) : coreOutcome (step s) = coreStep s.input s.toCoreState := by
  unfold step coreStep
  rcases s.toCoreState.nextInstr with f | i
  · rfl
  · exact coreOutcome_exec i s 0

/-- Everything an execution with a given input can be. -/
theorem execWith_cases (rnd : Byte) (i : Instr) (s : State) :
    (∃ x kk, i = .rnd x kk ∧ execWith rnd i s = .next (s.withCore (randomMasked rnd x kk s.toCoreState))) ∨
    (inputsUsed i = 0 ∧ execWith rnd i s = exec i s) := by
  cases i
  case rnd x kk => exact .inl ⟨x, kk, rfl, rfl⟩
  all_goals exact .inr ⟨rfl, rfl⟩

/-- Everything a `step(rnd)` that answers a next state has done (R90). -/
theorem coreStep_next {rnd : Byte} {c d : CoreState} (h : coreStep rnd c = .next d) :
    ∃ i, c.nextInstr = .ok i ∧ ((∃ x kk, i = .rnd x kk ∧ d = randomMasked rnd x kk c) ∨
      (inputsUsed i = 0 ∧ ∃ t, exec i ⟨c, 0⟩ = .next t ∧ d = t.toCoreState)) := by
  unfold coreStep at h
  rcases hn : c.nextInstr with f | i
  · rw [hn] at h
    cases h
  · rw [hn] at h
    refine ⟨i, rfl, ?_⟩
    rcases execWith_cases rnd i ⟨c, 0⟩ with ⟨x, kk, rfl, e⟩ | ⟨hi, e⟩
    · simp only [e, coreOutcome] at h
      cases h
      exact .inl ⟨x, kk, rfl, rfl⟩
    · simp only [e] at h
      rcases ht : exec i ⟨c, 0⟩ with t | f | r <;> rw [ht] at h <;> cases h
      exact .inr ⟨hi, t, rfl, rfl⟩

/-- The core's step on an instruction that uses no input is that instruction's execution, whatever the input. -/
theorem coreStep_eq_exec {s : State} {i : Instr} (hn : s.nextInstr = .ok i) (hi : inputsUsed i = 0) (rnd : Byte) :
    coreStep rnd s.toCoreState = coreOutcome (exec i s) := by
  have ignores : ∀ b t, execWith b i t = exec i t := fun b t => by
    rcases execWith_cases b i t with ⟨x, kk, rfl, -⟩ | ⟨-, e⟩
    · cases hi
    · exact e
  rw [coreOutcome_exec i s 0, ignores]
  unfold coreStep
  rw [hn]
  simp only [ignores]

/-- Everything a step with its outputs can do, where no instruction is refused (R93). -/
theorem opStep_cases (rnd : Byte) (s : CoreState) :
    (∃ t, coreStep rnd s = .next t ∧ opStep rnd s = some (t, ⟨.ok, frameStep s, t.ST⟩)) ∨
    (∃ f, coreStep rnd s = .fault f ∧ opStep rnd s = some (s, ⟨.fault f, false, s.ST⟩)) ∨
    (∃ r, coreStep rnd s = .refused r ∧ opStep rnd s = none) := by
  unfold opStep
  rcases coreStep rnd s with t | f | r
  · exact .inl ⟨t, rfl, rfl⟩
  · exact .inr (.inl ⟨f, rfl, rfl⟩)
  · exact .inr (.inr ⟨r, rfl, rfl⟩)

end Sys2Proof.Machine
end

