-- ==== Sys2Proof/Laws/PerInstr.lean ====
section
/-! SUPPORT. What the masks of the opcode map (spec/30_encoding.md R75) select, and the family EncodeRow, one lemma per
constructor: the word of an instruction lies in the instruction's own row. -/

namespace Sys2Proof

/-- The mask 0xF000 selects the family. -/
theorem mask_family (op : Word) : op &&& 0xF000 = wordNNN (fieldFamily op) 0 := by
  apply BitVec.eq_of_getLsbD_eq
  intro i hi
  simp only [wordNNN, fieldFamily, BitVec.getLsbD_and, BitVec.getLsbD_append, BitVec.getLsbD_extractLsb']
  interval_cases i <;> simp

/-- The mask 0xF00F selects the family and the low nibble. -/
theorem mask_family_n (op : Word) : op &&& 0xF00F = wordXYN (fieldFamily op) 0 0 (fieldN op) := by
  apply BitVec.eq_of_getLsbD_eq
  intro i hi
  simp only [wordXYN, fieldFamily, fieldN, regBits, BitVec.getLsbD_and, BitVec.getLsbD_append,
    BitVec.getLsbD_extractLsb']
  interval_cases i <;> simp

/-- The mask 0xF0FF selects the family and the low byte. -/
theorem mask_family_kk (op : Word) : op &&& 0xF0FF = wordXKK (fieldFamily op) 0 (fieldKK op) := by
  apply BitVec.eq_of_getLsbD_eq
  intro i hi
  simp only [wordXKK, fieldFamily, fieldKK, regBits, BitVec.getLsbD_and, BitVec.getLsbD_append,
    BitVec.getLsbD_extractLsb']
  interval_cases i <;> simp

end Sys2Proof

namespace Sys2Proof.Laws.EncodeRow

/-- The encoding of the instruction matches the mask and value of its row. -/
def Statement (i : Instr) : Prop := encode i &&& i.row.mask = i.row.value

theorem cls : Statement (.cls) := by
  unfold Statement
  decide

theorem ret : Statement (.ret) := by
  unfold Statement
  decide

theorem jp (nnn : BitVec 12) : Statement (.jp nnn) := by
  simp only [Statement, encode, Instr.row, mask_family, family_wordNNN]
  decide

theorem call (nnn : BitVec 12) : Statement (.call nnn) := by
  simp only [Statement, encode, Instr.row, mask_family, family_wordNNN]
  decide

theorem seImm (x : Reg) (kk : Byte) : Statement (.seImm x kk) := by
  simp only [Statement, encode, Instr.row, mask_family, family_wordXKK]
  decide

theorem sneImm (x : Reg) (kk : Byte) : Statement (.sneImm x kk) := by
  simp only [Statement, encode, Instr.row, mask_family, family_wordXKK]
  decide

theorem seReg (x y : Reg) (lo : BitVec 4) : Statement (.seReg x y lo) := by
  simp only [Statement, encode, Instr.row, mask_family, family_wordXYN]
  decide

theorem ldImm (x : Reg) (kk : Byte) : Statement (.ldImm x kk) := by
  simp only [Statement, encode, Instr.row, mask_family, family_wordXKK]
  decide

theorem addImm (x : Reg) (kk : Byte) : Statement (.addImm x kk) := by
  simp only [Statement, encode, Instr.row, mask_family, family_wordXKK]
  decide

theorem ldReg (x y : Reg) : Statement (.ldReg x y) := by
  simp only [Statement, encode, Instr.row, mask_family_n, family_wordXYN, n_wordXYN]
  decide

theorem or (x y : Reg) : Statement (.or x y) := by
  simp only [Statement, encode, Instr.row, mask_family_n, family_wordXYN, n_wordXYN]
  decide

theorem and (x y : Reg) : Statement (.and x y) := by
  simp only [Statement, encode, Instr.row, mask_family_n, family_wordXYN, n_wordXYN]
  decide

theorem xor (x y : Reg) : Statement (.xor x y) := by
  simp only [Statement, encode, Instr.row, mask_family_n, family_wordXYN, n_wordXYN]
  decide

theorem addReg (x y : Reg) : Statement (.addReg x y) := by
  simp only [Statement, encode, Instr.row, mask_family_n, family_wordXYN, n_wordXYN]
  decide

theorem sub (x y : Reg) : Statement (.sub x y) := by
  simp only [Statement, encode, Instr.row, mask_family_n, family_wordXYN, n_wordXYN]
  decide

theorem shr (x y : Reg) : Statement (.shr x y) := by
  simp only [Statement, encode, Instr.row, mask_family_n, family_wordXYN, n_wordXYN]
  decide

theorem subn (x y : Reg) : Statement (.subn x y) := by
  simp only [Statement, encode, Instr.row, mask_family_n, family_wordXYN, n_wordXYN]
  decide

theorem shl (x y : Reg) : Statement (.shl x y) := by
  simp only [Statement, encode, Instr.row, mask_family_n, family_wordXYN, n_wordXYN]
  decide

theorem sneReg (x y : Reg) (lo : BitVec 4) : Statement (.sneReg x y lo) := by
  simp only [Statement, encode, Instr.row, mask_family, family_wordXYN]
  decide

theorem ldI (nnn : BitVec 12) : Statement (.ldI nnn) := by
  simp only [Statement, encode, Instr.row, mask_family, family_wordNNN]
  decide

theorem jpV0 (nnn : BitVec 12) : Statement (.jpV0 nnn) := by
  simp only [Statement, encode, Instr.row, mask_family, family_wordNNN]
  decide

theorem rnd (x : Reg) (kk : Byte) : Statement (.rnd x kk) := by
  simp only [Statement, encode, Instr.row, mask_family, family_wordXKK]
  decide

theorem drw (x y : Reg) (n : Nat) : Statement (.drw x y n) := by
  simp only [Statement, encode, Instr.row, mask_family, family_wordXYN]
  decide

theorem skp (x : Reg) : Statement (.skp x) := by
  simp only [Statement, encode, Instr.row, mask_family_kk, family_wordXKK, kk_wordXKK]
  decide

theorem sknp (x : Reg) : Statement (.sknp x) := by
  simp only [Statement, encode, Instr.row, mask_family_kk, family_wordXKK, kk_wordXKK]
  decide

theorem ldVxDt (x : Reg) : Statement (.ldVxDt x) := by
  simp only [Statement, encode, Instr.row, mask_family_kk, family_wordXKK, kk_wordXKK]
  decide

theorem ldVxK (x : Reg) : Statement (.ldVxK x) := by
  simp only [Statement, encode, Instr.row, mask_family_kk, family_wordXKK, kk_wordXKK]
  decide

theorem ldDtVx (x : Reg) : Statement (.ldDtVx x) := by
  simp only [Statement, encode, Instr.row, mask_family_kk, family_wordXKK, kk_wordXKK]
  decide

theorem ldStVx (x : Reg) : Statement (.ldStVx x) := by
  simp only [Statement, encode, Instr.row, mask_family_kk, family_wordXKK, kk_wordXKK]
  decide

theorem addI (x : Reg) : Statement (.addI x) := by
  simp only [Statement, encode, Instr.row, mask_family_kk, family_wordXKK, kk_wordXKK]
  decide

theorem ldF (x : Reg) : Statement (.ldF x) := by
  simp only [Statement, encode, Instr.row, mask_family_kk, family_wordXKK, kk_wordXKK]
  decide

theorem ldB (x : Reg) : Statement (.ldB x) := by
  simp only [Statement, encode, Instr.row, mask_family_kk, family_wordXKK, kk_wordXKK]
  decide

theorem stRegs (x : Reg) : Statement (.stRegs x) := by
  simp only [Statement, encode, Instr.row, mask_family_kk, family_wordXKK, kk_wordXKK]
  decide

theorem ldRegs (x : Reg) : Statement (.ldRegs x) := by
  simp only [Statement, encode, Instr.row, mask_family_kk, family_wordXKK, kk_wordXKK]
  decide

end Sys2Proof.Laws.EncodeRow
end

