-- ==== Sys2Proof/Tests/Slice0.lean ====
section
/-! SUPPORT. The model's own tests: ill-formed terms refused, words decoded, single steps with the values of
spec/95_test_vectors.md (the ids in the docstrings are its), and for every statement with hypotheses a state and operands
that meet them all, at the ends of their ranges. -/

namespace Sys2Proof.Machine.Tests

set_option maxRecDepth 4000

/-! ## Helpers -/

/-- The host's state with the core in a given state and no input used. -/
def put (c : CoreState) : State := State.reset.withCore c

/-- The core after reset with some registers set. -/
def withRegs (l : List (Reg × Byte)) : CoreState := l.foldl (fun s p => s.writeV p.1 p.2) CoreState.reset

/-- The core after reset with `I` and some registers set. -/
def withIndex (i : Word) (l : List (Reg × Byte)) : CoreState := (withRegs l).setI i

/-- Bytes stored from an address up. -/
def poked (a : Nat) (bytes : List Byte) (s : CoreState) : CoreState := s.setMem (s.mem.writeBytes a bytes)

/-- The state after one step that runs the word, if that step answers a state. -/
def ran (w : Nat) (s : CoreState) : Option State :=
  match step ((put s).withFetchWord 16 w) with
  | .next t => some t
  | .fault _ => none
  | .refused _ => none

/-- The fault of one step that runs the word, if it faults. -/
def faulted (w : Nat) (s : CoreState) : Option Fault :=
  match step ((put s).withFetchWord 16 w) with
  | .next _ => none
  | .fault f => some f
  | .refused _ => none

/-- A register and VF after one step that runs the word. -/
def regAndFlag (w : Nat) (x : Reg) (s : CoreState) : Option (Byte × Byte) :=
  (ran w s).map fun t => (t.readV x, t.readV VF)

/-- `pc` after one step that runs the word. -/
def pcAfter (w : Nat) (s : CoreState) : Option Word := (ran w s).map (·.pc)

/-! ## Well-formedness -/

theorem test_row_count_16_refused : (Instr.drw 0 0 16).wellFormed = false := by decide

theorem test_row_count_15_accepted : (Instr.drw 15 15 15).wellFormed = true := by decide

/-- S9: 3585 bytes are one too many, 3584 fit. -/
theorem test_image_length :
    imageFits (List.replicate 3585 0) = false ∧ imageFits (List.replicate 3584 0) = true := by
  simp only [imageFits, List.length_replicate]
  decide

/-! ## Decoding, each word written out from R72 and R75 -/

theorem test_decode_family_0 :
    decodeTableWord 16 0b0000000011100000 = some .cls ∧ decodeTableWord 16 0b0000000011101110 = some .ret := by decide

theorem test_decode_families_1_2_A_B :
    decodeTableWord 16 0b0001001000110100 = some (.jp 0x234) ∧
    decodeTableWord 16 0b0010111111111110 = some (.call 0xFFE) ∧
    decodeTableWord 16 0b1010001000001110 = some (.ldI 0x20E) ∧
    decodeTableWord 16 0b1011100000000001 = some (.jpV0 0x801) := by decide

theorem test_decode_families_3_4_6_7_C :
    decodeTableWord 16 0b0011000111111110 = some (.seImm 1 0xFE) ∧
    decodeTableWord 16 0b0100001000000001 = some (.sneImm 2 0x01) ∧
    decodeTableWord 16 0b0110101000000101 = some (.ldImm 0xA 0x05) ∧
    decodeTableWord 16 0b0111101000000011 = some (.addImm 0xA 0x03) ∧
    decodeTableWord 16 0b1100001100001111 = some (.rnd 3 0x0F) := by decide

/-- E9, E10 (D7) and E2. -/
theorem test_decode_families_5_9_D :
    decodeTableWord 16 0b0101000100100000 = some (.seReg 1 2 0) ∧
    decodeTableWord 16 0b0101000100100001 = some (.seReg 1 2 1) ∧
    decodeTableWord 16 0b1001000100101111 = some (.sneReg 1 2 15) ∧
    decodeTableWord 16 0b1101011110100101 = some (.drw 7 0xA 5) := by decide

theorem test_decode_family_8 :
    decodeTableWord 16 0b1000000101000000 = some (.ldReg 1 4) ∧
    decodeTableWord 16 0b1000000101000001 = some (.or 1 4) ∧
    decodeTableWord 16 0b1000000101000010 = some (.and 1 4) ∧
    decodeTableWord 16 0b1000000101000011 = some (.xor 1 4) ∧
    decodeTableWord 16 0b1000000101000100 = some (.addReg 1 4) ∧
    decodeTableWord 16 0b1000000101000101 = some (.sub 1 4) ∧
    decodeTableWord 16 0b1000000101000110 = some (.shr 1 4) ∧
    decodeTableWord 16 0b1000000101000111 = some (.subn 1 4) ∧
    decodeTableWord 16 0b1000000101001110 = some (.shl 1 4) := by decide

theorem test_decode_family_E :
    decodeTableWord 16 0b1110001010011110 = some (.skp 2) ∧
    decodeTableWord 16 0b1110001010100001 = some (.sknp 2) := by decide

theorem test_decode_family_F :
    decodeTableWord 16 0b1111010100000111 = some (.ldVxDt 5) ∧
    decodeTableWord 16 0b1111010100001010 = some (.ldVxK 5) ∧
    decodeTableWord 16 0b1111010100010101 = some (.ldDtVx 5) ∧
    decodeTableWord 16 0b1111010100011000 = some (.ldStVx 5) ∧
    decodeTableWord 16 0b1111010100011110 = some (.addI 5) ∧
    decodeTableWord 16 0b1111010100101001 = some (.ldF 5) ∧
    decodeTableWord 16 0b1111010100110011 = some (.ldB 5) ∧
    decodeTableWord 16 0b1111010101010101 = some (.stRegs 5) ∧
    decodeTableWord 16 0b1111010101100101 = some (.ldRegs 5) := by decide

/-- E3 to E8: every one of these words is illegal. -/
theorem test_illegal_words :
    ([0x0000, 0x00E1, 0x00EF, 0x00FE, 0x0123, 0x01E0, 0x0FFF, 0x8008, 0x8129, 0x8ABA, 0x8FFD, 0x812F]
      ++ [0xE000, 0xE09F, 0xE1A0, 0xE29D, 0xEFFF, 0xF000, 0xF030, 0xF075, 0xF085, 0xF1FF, 0xF008]).all
      (fun w => decodeTableWord 16 w == none) = true := by decide

/-- A lone byte is no instruction, and bytes past the second are left alone (R70). -/
theorem test_decode_stream :
    decode [0x12] = .error .truncated ∧ decode [0x12, 0x34, 0x56] = .ok (.jp 0x234, [0x56]) ∧
    decode [0xFF, 0xFF] = .error (.unknownOpcode 0xFFFF) := ⟨rfl, rfl, rfl⟩

/-- R75: no word matches two rows. -/
theorem test_rows_disjoint :
    opcodeMap.Pairwise fun r q => r.value &&& (r.mask &&& q.mask) ≠ q.value &&& (r.mask &&& q.mask) := by decide

/-! ## Single steps: control flow -/

/-- S2 and G1. -/
theorem test_cls : (ran 0x00E0 (CoreState.reset.setFB (Frame.blank.toggle 3 4))).map
    (fun t => (t.FB.pixel 3 4, t.DIRTY, t.pc)) = some (false, true, 0x202) := by decide

/-- B5: the popped value plus 2, the entry unchanged. -/
theorem test_ret : (ran 0x00EE ((CoreState.reset.setStack (CoreState.reset.Stack.set 0 0x0204)).setSP 1)).map
    (fun t => (t.pc, t.SP, t.Stack[0])) = some (0x206, 0, 0x204) := by decide

/-- B6, P6b. -/
theorem test_ret_empty : faulted 0x00EE CoreState.reset = some .stackUnderflow := by decide

/-- E1: the byte order. -/
theorem test_jp : pcAfter 0x1234 CoreState.reset = some 0x234 := by decide

/-- B7: the sixteenth entry. -/
theorem test_call : (ran 0x2300 (CoreState.reset.setSP 15)).map (fun t => (t.pc, t.SP, t.Stack[15])) =
    some (0x300, 16, 0x200) := by decide

/-- B8. -/
theorem test_call_full : faulted 0x2300 (CoreState.reset.setSP 16) = some .stackOverflow := by decide

/-- B9 to B11. -/
theorem test_seImm : pcAfter 0x3000 CoreState.reset = some 0x204 ∧ pcAfter 0x3000 (withRegs [(0, 1)]) = some 0x202 ∧
    pcAfter 0x3F01 (withRegs [(15, 1)]) = some 0x204 := by decide

/-- B12. -/
theorem test_sneImm : pcAfter 0x4311 (withRegs [(3, 0x10)]) = some 0x204 ∧
    pcAfter 0x4310 (withRegs [(3, 0x10)]) = some 0x202 := by decide

/-- E9, B13. -/
theorem test_seReg : pcAfter 0x5121 (withRegs [(1, 7), (2, 7)]) = some 0x204 ∧
    pcAfter 0x5330 (withRegs [(3, 0x5A)]) = some 0x204 := by decide

/-- E10, B14. -/
theorem test_sneReg : pcAfter 0x912F (withRegs [(1, 7), (2, 8)]) = some 0x204 ∧
    pcAfter 0x9330 (withRegs [(3, 0x5A)]) = some 0x202 := by decide

/-- B16 to B18: always V0, never reduced to 12 bits. -/
theorem test_jpV0 : pcAfter 0xB300 (withRegs [(0, 4)]) = some 0x304 ∧
    pcAfter 0xB210 (withRegs [(2, 0x10)]) = some 0x210 ∧ pcAfter 0xBFFF (withRegs [(0, 0xFF)]) = some 0x10FE := by
  decide

/-! ## Single steps: registers and ALU -/

/-- A1. -/
theorem test_ldImm : regAndFlag 0x6F07 15 CoreState.reset = some (7, 7) := by decide

/-- A2, A3: no flag. -/
theorem test_addImm : regAndFlag 0x7002 0 (withRegs [(0, 0xFF), (15, 5)]) = some (1, 5) ∧
    regAndFlag 0x70FF 0 (withRegs [(0, 0x10)]) = some (0x0F, 0) := by decide

/-- A4. -/
theorem test_ldReg : regAndFlag 0x8010 0 (withRegs [(1, 0x42)]) = some (0x42, 0) := by decide

/-- A5. -/
theorem test_or : regAndFlag 0x8011 0 (withRegs [(0, 0xF0), (1, 0x0F), (15, 1)]) = some (0xFF, 1) := by decide

/-- A6. -/
theorem test_and : regAndFlag 0x8012 0 (withRegs [(0, 0xF0), (1, 0x3C), (15, 1)]) = some (0x30, 1) := by decide

/-- A7, A8. -/
theorem test_xor : regAndFlag 0x8013 0 (withRegs [(0, 0xF0), (1, 0x3C), (15, 1)]) = some (0xCC, 1) ∧
    regAndFlag 0x8003 0 (withRegs [(0, 0x33)]) = some (0, 0) := by decide

/-- S4, A9. -/
theorem test_addReg : regAndFlag 0x8014 0 (withRegs [(0, 0xFF), (1, 1)]) = some (0, 1) ∧
    regAndFlag 0x8014 0 (withRegs [(0, 0x10), (1, 0x20), (15, 1)]) = some (0x30, 0) := by decide

/-- A12, A13: VF as destination and as operand. -/
theorem test_addReg_flag : regAndFlag 0x8F14 15 (withRegs [(15, 5), (1, 2)]) = some (0, 0) ∧
    regAndFlag 0x80F4 0 (withRegs [(0, 0xFE), (15, 3)]) = some (1, 1) := by decide

/-- S5, A14. -/
theorem test_sub : regAndFlag 0x8015 0 (withRegs [(0, 1), (1, 2)]) = some (0xFF, 0) ∧
    regAndFlag 0x8015 0 (withRegs [(0, 5), (1, 5)]) = some (0, 1) := by decide

/-- A16. -/
theorem test_sub_flag : regAndFlag 0x8F15 15 (withRegs [(15, 5), (1, 2)]) = some (1, 1) := by decide

/-- A17, A18. -/
theorem test_subn : regAndFlag 0x8017 0 (withRegs [(0, 1), (1, 2)]) = some (1, 1) ∧
    regAndFlag 0x8017 0 (withRegs [(0, 3), (1, 2)]) = some (0xFF, 0) := by decide

/-- A19. -/
theorem test_subn_flag : regAndFlag 0x8F17 15 (withRegs [(15, 5), (1, 2)]) = some (0, 0) := by decide

/-- A24: equal registers, so that the parameter does not matter. -/
theorem test_shifts_same_register : regAndFlag 0x8446 4 (withRegs [(4, 0xFF)]) = some (0x7F, 1) ∧
    regAndFlag 0x844E 4 (withRegs [(4, 0xFF)]) = some (0xFE, 1) := by decide

/-- A20, under both values of the parameter. -/
theorem test_shr :
    ((shiftRight .vx 0 1 (withRegs [(0, 5), (1, 8)])).readV 0 = 2 ∧
      (shiftRight .vx 0 1 (withRegs [(0, 5), (1, 8)])).readV VF = 1) ∧
    ((shiftRight .vy 0 1 (withRegs [(0, 5), (1, 8)])).readV 0 = 4 ∧
      (shiftRight .vy 0 1 (withRegs [(0, 5), (1, 8)])).readV VF = 0) := by decide

/-- A21, under both values of the parameter. -/
theorem test_shl :
    ((shiftLeft .vx 0 1 (withRegs [(0, 0x81), (1, 0x40)])).readV 0 = 2 ∧
      (shiftLeft .vx 0 1 (withRegs [(0, 0x81), (1, 0x40)])).readV VF = 1) ∧
    ((shiftLeft .vy 0 1 (withRegs [(0, 0x81), (1, 0x40)])).readV 0 = 0x80 ∧
      (shiftLeft .vy 0 1 (withRegs [(0, 0x81), (1, 0x40)])).readV VF = 0) := by decide

/-- A25. -/
theorem test_rnd : (randomMasked 0xB7 3 0x0F CoreState.reset).readV 3 = 7 := by decide

/-- A26: mask 0, whatever the free byte is. -/
theorem test_rnd_mask_zero : ∃ t, step (State.reset.withFetchWord 16 0xC300) = .next t ∧ t.readV 3 = 0 :=
  ⟨_, rfl, show Config.rnd 0 &&& (0#8) = 0#8 by simp⟩

/-! ## Single steps: index register and memory -/

/-- M1. -/
theorem test_ldI : (ran 0xA20E (CoreState.reset.setI 0xFFFF)).map (·.I) = some 0x20E := by decide

/-- M3, M4: no 12-bit mask, no flag, modulo 65536. -/
theorem test_addI : (ran 0xF01E (withIndex 0xFFF [(0, 1)])).map (fun t => (t.I, t.readV VF)) = some (0x1000, 0) ∧
    (ran 0xF01E (withIndex 0xFFFF [(0, 2)])).map (·.I) = some 1 := by decide

/-- M5 to M7: the whole byte. -/
theorem test_ldF : [0x0A, 0x10, 0xFF].map (fun v => (ran 0xF429 (withRegs [(4, v)])).map (·.I)) =
    [some 0x32, some 0x50, some 0x4FB] := by decide

/-- M9. -/
theorem test_ldB : (ran 0xF033 (withIndex 0xFFD [(0, 255)])).map
    (fun t => (t.mem.readBytes 0xFFD 3, t.I)) = some ([2, 5, 5], 0xFFD) := by decide

/-- M10. -/
theorem test_ldB_range : faulted 0xF033 (withIndex 0xFFE [(0, 255)]) = some .memoryOutOfRange := by decide

/-- M17, first instruction. -/
theorem test_stRegs : (ran 0xF255 (withIndex 0x300 [(0, 1), (1, 2), (2, 3), (3, 9)])).map
    (fun t => (t.mem.readBytes 0x300 4, t.I)) = some ([1, 2, 3, 0], 0x300) := by decide

/-- M13, M14. -/
theorem test_stRegs_range : (ran 0xF055 (withIndex 0xFFF [(0, 0x77)])).map (·.mem.read 0xFFF) = some 0x77 ∧
    faulted 0xF155 (withIndex 0xFFF []) = some .memoryOutOfRange := by decide

/-- M16 with bytes of its own in place of the font: registers above `x` untouched. -/
theorem test_ldRegs : (ran 0xF165 (poked 0x300 [0x90, 0xF0, 0x20] (withIndex 0x300 [(2, 0x11)]))).map
    (fun t => (t.readV 0, t.readV 1, t.readV 2, t.I)) = some (0x90, 0xF0, 0x11, 0x300) := by decide

/-- M14. -/
theorem test_ldRegs_range : faulted 0xF165 (withIndex 0xFFF []) = some .memoryOutOfRange := by decide

/-! ## Single steps: display -/

/-- S6, first draw, and G10: the pixels lit, the flag, the dirty flag. -/
theorem test_drw :
    (ran 0xD011 (poked 0x20E [0xF0] (withIndex 0x20E []))).map (fun t =>
      ([0, 1, 2, 3, 4].map (fun c => t.FB.pixel c 0), t.readV VF, t.DIRTY)) =
      some ([true, true, true, true, false], 0, true) ∧
    (ran 0xD011 (poked 0x300 [0x80] (withIndex 0x300 [(0, 63), (1, 31)]))).map (fun t => t.FB.pixel 63 31) =
      some true := by decide

/-- G7, G8: a second row past the end faults, no row never does. -/
theorem test_drw_range : faulted 0xD002 (withIndex 0xFFF []) = some .memoryOutOfRange ∧
    (ran 0xD000 (withIndex 0xFFFF [(15, 9)])).map (fun t => (t.readV VF, t.DIRTY, t.pc)) =
      some (0, true, 0x202) := by decide

/-- G5, first row, under both values of the parameter: 255 + c modulo 64, or off the screen. -/
theorem test_draw_edge :
    [63, 0, 1, 2].map (fun px => (drawSprite .wrap 0 0 [0xF0] (withRegs [(0, 0xFF)])).FB.pixel px 31) =
      [true, true, true, true] ∧
    [63, 0, 1, 2].map (fun px => (drawSprite .clip 0 0 [0xF0] (withRegs [(0, 0xFF)])).FB.pixel px 31) =
      [false, false, false, false] := by decide

/-- G3: the old VF is the column, then VF takes the collision; G2: one overlapping pixel is a collision. -/
theorem test_draw_collision :
    ((drawSprite .clip 15 0 [0xF0] (withRegs [(0, 1), (15, 2)])).FB.pixel 2 1 = true ∧
      (drawSprite .clip 15 0 [0xF0] (withRegs [(0, 1), (15, 2)])).readV VF = 0) ∧
    ((drawSprite .wrap 0 0 [0xF0] (CoreState.reset.setFB (Frame.blank.toggle 3 0))).FB.pixel 3 0 = false ∧
      (drawSprite .wrap 0 0 [0xF0] (CoreState.reset.setFB (Frame.blank.toggle 3 0))).readV VF = 1) := by decide

/-! ## Single steps: keypad and timers -/

/-- K2, K3: the index is masked. -/
theorem test_skp : pcAfter 0xE29E (opSetKey 7 (withRegs [(2, 0x17)])) = some 0x204 ∧
    pcAfter 0xE29E (withRegs [(2, 0x07)]) = some 0x202 := by decide

/-- K4, K5. -/
theorem test_sknp : pcAfter 0xE2A1 (withRegs [(2, 0x07)]) = some 0x204 ∧
    pcAfter 0xE2A1 (opSetKey 7 (withRegs [(2, 0xF7)])) = some 0x202 := by decide

/-- K10. -/
theorem test_ldVxDt : regAndFlag 0xF107 1 (CoreState.reset.setDT 4) = some (4, 0) := by decide

/-- K6: the lowest key wins. -/
theorem test_ldVxK : (ran 0xF00A (opSetKey 7 (opSetKey 12 CoreState.reset))).map (fun t => (t.readV 0, t.pc)) =
    some (7, 0x202) := by decide

/-- K9: nothing changes. -/
theorem test_ldVxK_idle : 
    step (State.reset.withFetchWord 16 0xF00A) = .next (State.reset.withFetchWord 16 0xF00A) := rfl

/-- K11. -/
theorem test_ldDtVx : (ran 0xF015 (withRegs [(0, 7)])).map (·.DT) = some 7 := by decide

/-- K12. -/
theorem test_ldStVx : (ran 0xF518 (withRegs [(5, 0x1E)])).map (·.ST) = some 0x1E := by decide

/-! ## The other operations -/

/-- H1 to H3. -/
theorem test_tick :
    ((opTick ((CoreState.reset.setDT 2).setST 5)).DT = 1 ∧ (opTick ((CoreState.reset.setDT 2).setST 5)).ST = 4) ∧
    (opTick (CoreState.reset.setDT 1)).DT = 0 ∧ opTick CoreState.reset = CoreState.reset := by decide

/-- H6. -/
theorem test_clearKey : (opClearKey 5 (opSetKey 6 (opSetKey 5 CoreState.reset))).keyDown 5 = false ∧
    (opClearKey 5 (opSetKey 6 (opSetKey 5 CoreState.reset))).keyDown 6 = true := by decide

/-- H11: only the bytes given are written. -/
theorem test_loadProgram :
    (opLoadProgram [0x12, 0x00] ((poked 0x200 [0xAA, 0xBB, 0xCC, 0xDD] CoreState.reset).setDT 3)).map
      (fun t => (t.mem.readBytes 0x200 4, t.DT, t.pc)) = .ok ([0x12, 0x00, 0xCC, 0xDD], 3, 0x200) := rfl

/-- H13, P6c. -/
theorem test_step_after_reset : step State.reset = .fault .unknownOpcode := rfl

/-- B2, B4: a fetch at 0xFFF faults, a fetch at 0xFFE does not. -/
theorem test_fetch_at_the_end : step (put (CoreState.reset.setPc 0xFFF)) = .fault .memoryOutOfRange ∧
    step (put (CoreState.reset.setPc 0xFFE)) = .fault .unknownOpcode := ⟨rfl, rfl⟩

/-- R34: under the default font, glyph A of P7 stands at 0x32. -/
theorem test_font_default (h : Config.font = Config.fontDefault) :
    CoreState.reset.mem.readBytes 0x32 5 = [0xF0, 0x90, 0xF0, 0x90, 0x90] := by
  simp only [CoreState.reset, Memory.readBytes, Memory.read, Memory.unlisted, h]
  rfl

/-! ## Witnesses: states and operands that meet the hypotheses of each statement -/

/-- The host's state after reset with `pc`, `I` or `SP` set. -/
def atPc (v : Word) : State := put (CoreState.reset.setPc v)
def atIndex (v : Word) : State := put (CoreState.reset.setI v)
def atDepth (v : Fin 17) : State := put (CoreState.reset.setSP v)

/-- A sprite of one set pixel row at 0x300, drawn at the origin. -/
def sprite : State := put (poked 0x300 [0xF0] (withIndex 0x300 []))

/-- A state at a self-jump on the last address a word can be fetched from (B3). -/
def selfJump : State := put (poked 0xFFE [0x1F, 0xFE] (CoreState.reset.setPc 0xFFE))

theorem witness_DecodeOfEncodeIsIdentity : ∃ i : Instr, i.wellFormed = true := ⟨.drw 15 0 15, rfl⟩

theorem witness_EncodeOfDecodeIsIdentity : ∃ op i, decodeWord op = some i := ⟨0x812E, .shl 1 2, rfl⟩

theorem witness_DecoderFollowsTheOpcodeMap :
    (∃ op i, decodeWord op = some i) ∧
    ∃ (op : Word) (row : OpcodeRow), row ∈ opcodeMap ∧ op &&& row.mask = row.value :=
  ⟨⟨0xF065, .ldRegs 0, rfl⟩, 0xFF65, (Instr.ldRegs 0).row, by decide, by decide⟩

theorem witness_FetchIsBigEndian : ∃ s : State, s.pc.toNat ≤ 0xFFE ∧ s.pc.toNat = 0xFFE :=
  ⟨atPc 0xFFE, by decide, by decide⟩

theorem witness_FetchPastTheEndFaults : ∃ s : State, 0xFFF ≤ s.pc.toNat ∧ s.pc.toNat = 0xFFF :=
  ⟨atPc 0xFFF, by decide, by decide⟩

theorem witness_UnmatchedWordIsUnknownOpcode : ∃ (s : State) (op : Word), s.fetch = .ok op ∧
    ∀ row ∈ opcodeMap, op &&& row.mask ≠ row.value := ⟨State.reset, 0, rfl, by decide⟩

theorem witness_StepRunsTheDecodedInstruction :
    (∃ (s : State) (i : Instr), s.pc.toNat ≤ 0xFFE ∧
      decode [s.mem.read s.pc.toNat, s.mem.read (s.pc.toNat + 1)] = .ok (i, [])) ∧
    ∃ s t : State, step s = .next t :=
  ⟨⟨selfJump, .jp 0xFFE, by decide, rfl⟩, selfJump, selfJump, rfl⟩

theorem witness_PlacedWordRunsNext :
    (∃ (s : State) (w : Nat) (i : Instr), s.mem.wf ∧ decodeTableWord 16 w = some i ∧ s.pc.toNat ≤ 0xFFE) ∧
    ∃ (s : State) (w : Nat) (i : Instr), s.mem.wf ∧ decodeTableWord 16 w = some i ∧ 0xFFF ≤ s.pc.toNat :=
  ⟨⟨atPc 0xFFE, 0x1234, .jp 0x234, by decide, rfl, by decide⟩,
   atPc 0xFFF, 0x1234, .jp 0x234, by decide, rfl, by decide⟩

/-- Each fault of the execute phase occurs, at the first operand value that raises it. -/
theorem witness_ExecuteFaultsExactly :
    exec (.call 0) (atDepth 16) = .fault .stackOverflow ∧ exec .ret State.reset = .fault .stackUnderflow ∧
    exec (.drw 0 0 1) (atIndex 0x1000) = .fault .memoryOutOfRange ∧
    exec (.ldB 0) (atIndex 0xFFE) = .fault .memoryOutOfRange ∧
    exec (.stRegs 1) (atIndex 0xFFF) = .fault .memoryOutOfRange ∧
    exec (.ldRegs 15) (atIndex 0xFF1) = .fault .memoryOutOfRange := ⟨rfl, rfl, rfl, rfl, rfl, rfl⟩

theorem witness_DefaultAdvanceIsTwo :
    ∃ (i : Instr) (s t : State), exec i s = .next t ∧ ownPc i = false ∧ s.pc = 0xFFFE :=
  ⟨.ldImm 0 1, atPc 0xFFFE, _, rfl, rfl, rfl⟩

theorem witness_InstructionsWriteOnlyTheAccessMatrix :
    (∃ (i : Instr) (s t : State), exec i s = .next t ∧ inputsUsed i = 0) ∧
    ∃ (i : Instr) (s t : State), exec i s = .next t ∧ inputsUsed i = 1 :=
  ⟨⟨.ldImm 0 1, State.reset, _, rfl, rfl⟩, .rnd 0 1, State.reset, _, rfl, rfl⟩

theorem witness_RegistersChangeOnlyAsDestinationOrFlag :
    (∃ (i : Instr) (s t : State) (r : Reg), exec i s = .next t ∧ r ≠ VF ∧ r ∉ destinations i) ∧
    (∃ (i : Instr) (s t : State), exec i s = .next t ∧ writesFlag i = false ∧ VF ∉ destinations i) ∧
    ∃ (i : Instr) (s t : State), exec i s = .next t ∧ writesFlag i = true ∧ VF ∈ destinations i :=
  ⟨⟨.ldRegs 13, State.reset, _, 14, rfl, by decide, by decide⟩,
   ⟨.ldRegs 14, State.reset, _, rfl, rfl, by decide⟩, .addReg 15 0, State.reset, _, rfl, rfl, by decide⟩

theorem witness_StepOutputs :
    (∃ (rnd : Byte) (s t : CoreState), coreStep rnd s = .next t) ∧
    ∃ (rnd : Byte) (s : CoreState) (f : Fault), coreStep rnd s = .fault f :=
  ⟨⟨0xB7, selfJump.toCoreState, selfJump.toCoreState, rfl⟩, 0xB7, CoreState.reset, .unknownOpcode, rfl⟩

theorem selfJump_inv : selfJump.Inv := ⟨by decide, by decide, by decide⟩

theorem witness_StepKeepsInvariant : ∃ s t : State, s.Inv ∧ step s = .next t :=
  ⟨selfJump, selfJump, selfJump_inv, rfl⟩

theorem witness_OperationsKeepInvariant :
    (∃ (bytes : List Byte) (s t : CoreState) (r : Report), s.Inv ∧ perform (.loadProgram bytes) s = some (t, r)) ∧
    ∃ (rnd : Byte) (s t : CoreState) (r : Report), s.Inv ∧ perform (.step rnd) s = some (t, r) :=
  ⟨⟨[0x12, 0x00], selfJump.toCoreState, _, _, selfJump_inv, rfl⟩, 0xB7, selfJump.toCoreState, _, _, selfJump_inv, rfl⟩

/-- A program loaded after reset and one step of it. -/
theorem witness_ReachableProgramCounterBound : ∃ s : CoreState, Reachable s ∧ s.pc = 0x234 ∧ s.SP = 1 :=
  ⟨_, ⟨[.reset, .loadProgram [0x22, 0x34], .step 0xB7], rfl⟩, rfl, rfl⟩

theorem witness_CallPushesItsOwnAddress :
    (∃ s : State, s.SP.val < 16 ∧ s.SP.val = 15) ∧ ∃ s : State, s.SP = 16 :=
  ⟨⟨atDepth 15, by decide, rfl⟩, atDepth 16, rfl⟩

theorem witness_ReturnPopsAndAddsTwo :
    (∃ (s : State) (i : Fin 16), s.SP.val = i.val + 1 ∧ i = 0) ∧
    (∃ (s : State) (i : Fin 16), s.SP.val = i.val + 1 ∧ i = 15) ∧ ∃ s : State, s.SP = 0 :=
  ⟨⟨atDepth 1, 0, rfl, rfl⟩, ⟨atDepth 16, 15, rfl, rfl⟩, State.reset, rfl⟩

/-- S3, with the target at the last fetchable address. -/
theorem witness_CallThenReturnComesBack :
    ∃ (s : State) (nnn : BitVec 12), s.nextInstr = .ok (.call nnn) ∧ s.SP.val < 16 ∧ nnn.toNat ≤ 0xFFE ∧
      s.mem.read nnn.toNat = 0x00 ∧ s.mem.read (nnn.toNat + 1) = 0xEE :=
  ⟨put (poked 0xFFE [0x00, 0xEE] (poked 0x200 [0x2F, 0xFE] CoreState.reset)), 0xFFE, rfl, by decide, by decide,
   by decide, by decide⟩

/-- The operand of a shift, whichever register the parameter names. -/
theorem witness_ShiftsByOne : ∃ (x y : Reg) (s : State) (v : Byte), x ≠ y ∧
    (Config.shiftSrc = .vx → v = s.readV x) ∧ (Config.shiftSrc = .vy → v = s.readV y) :=
  ⟨0, 1, put (withRegs [(0, 0x81), (1, 0x40)]), shiftOperand Config.shiftSrc 0x81 0x40, by decide,
   fun h => by rw [h]; decide, fun h => by rw [h]; decide⟩

/-- An instruction that uses an input byte and one that does not. -/
theorem witness_RandomByteUnderMask : inputsUsed (.rnd 3 0x0F) = 1 ∧ inputsUsed (.ldImm 0xA 5) = 0 := ⟨rfl, rfl⟩

theorem witness_StoreDecimalDigits :
    (∃ s : State, s.mem.wf ∧ s.base + 2 ≤ 0xFFF ∧ s.base = 0xFFD) ∧
    ∃ s : State, s.mem.wf ∧ 0xFFF < s.base + 2 ∧ s.base = 0xFFE :=
  ⟨⟨atIndex 0xFFD, by decide, by decide, by decide⟩, atIndex 0xFFE, by decide, by decide, by decide⟩

theorem witness_StoreRegisters :
    (∃ (x : Reg) (s : State), s.mem.wf ∧ s.base + x.val ≤ 0xFFF ∧ s.base = 0xFF0 ∧ x = 15) ∧
    ∃ (x : Reg) (s : State), s.mem.wf ∧ 0xFFF < s.base + x.val ∧ s.base = 0xFF1 ∧ x = 15 :=
  ⟨⟨15, atIndex 0xFF0, by decide, by decide, by decide, rfl⟩,
   15, atIndex 0xFF1, by decide, by decide, by decide, rfl⟩

theorem witness_LoadRegisters :
    (∃ (x r : Reg) (s : State), s.base + x.val ≤ 0xFFF ∧ s.base = 0xFFF ∧ r ≤ x ∧ x = 0) ∧
    (∃ (x r : Reg) (s : State), s.base + x.val ≤ 0xFFF ∧ x < r) ∧
    ∃ (x : Reg) (s : State), 0xFFF < s.base + x.val ∧ s.base = 0xFFF ∧ x = 1 :=
  ⟨⟨0, 0, atIndex 0xFFF, by decide, by decide, by decide, rfl⟩,
   ⟨14, 15, State.reset, by decide, by decide⟩, 1, atIndex 0xFFF, by decide, by decide, rfl⟩

theorem witness_StoreThenLoadRestoresRegisters :
    ∃ (x : Reg) (s t u : State), s.mem.wf ∧ exec (.stRegs x) s = .next t ∧
      (∀ a, u.mem.read a = t.mem.read a) ∧ u.I = t.I ∧ u.readV 0 ≠ s.readV 0 :=
  ⟨2, put (withIndex 0x300 [(0, 1), (1, 2), (2, 3)]), _, put (CoreState.writeV _ 0 0), by decide, rfl, fun _ => rfl,
   rfl, by decide⟩

/-- P4 in one step: `F155` stores the word at the next `pc`. -/
theorem witness_StoreIsSeenByTheNextFetch :
    ∃ (x r : Reg) (s t : State), s.mem.wf ∧ exec (.stRegs x) s = .next t ∧ r < x ∧
      t.pc.toNat = s.base + r.val :=
  ⟨1, 0, put (withIndex 0x202 [(0, 0x6A), (1, 0x2A)]), _, by decide, rfl, by decide, by decide⟩

theorem witness_ClearScreen : ∃ s : State, s.nextInstr = .ok .cls := ⟨State.reset.withFetchWord 16 0x00E0, rfl⟩

theorem sprite_covers : spriteCovers Config.spriteEdge sprite 0 1 1 0 0 := by
  refine ⟨0, 0, by decide, by decide, by decide, ?_⟩
  generalize Config.spriteEdge = edge
  cases edge <;> decide

theorem sprite_covers_not : ¬ spriteCovers Config.spriteEdge sprite 0 1 0 0 0 :=
  fun ⟨_, _, h, _⟩ => absurd h (by omega)

theorem witness_DrawTogglesTheSpritePixels :
    (∃ (n : Nat) (s : State), n ≤ 15 ∧ (n = 0 ∨ s.base + n - 1 ≤ 0xFFF) ∧ n = 15 ∧ s.base = 0xFF1) ∧
    (∃ (n : Nat) (s : State), n ≤ 15 ∧ (n = 0 ∨ s.base + n - 1 ≤ 0xFFF) ∧ n = 0 ∧ s.base = 0xFFFF) ∧
    (sprite.base + 1 - 1 ≤ 0xFFF ∧ spriteCovers Config.spriteEdge sprite 0 1 1 0 0) ∧
    (¬ spriteCovers Config.spriteEdge sprite 0 1 0 0 0) ∧
    ∃ s : State, s.base + 1 - 1 ≤ 0xFFF ∧ spriteCovers Config.spriteEdge s 0 1 1 0 0 ∧ s.FB.pixel 0 0 = true :=
  ⟨⟨15, atIndex 0xFF1, by decide, by decide, rfl, by decide⟩, ⟨0, atIndex 0xFFFF, by decide, by decide, rfl, by decide⟩,
   ⟨by decide, sprite_covers⟩, sprite_covers_not, put (sprite.setFB (Frame.blank.toggle 0 0)), by decide,
   sprite_covers, by decide⟩

theorem witness_DrawRangeCheck :
    (∃ (n : Nat) (s : State), 0 < n ∧ 0xFFF < s.base + n - 1 ∧ n = 1 ∧ s.base = 0x1000) ∧
    ∃ (n : Nat) (s : State), 0 < n ∧ 0xFFF < s.base + n - 1 ∧ n = 15 ∧ s.base = 0xFF2 :=
  ⟨⟨1, atIndex 0x1000, by decide, by decide, rfl, by decide⟩, 15, atIndex 0xFF2, by decide, by decide, rfl, by decide⟩

/-- S6: the state after the first draw, drawn again. -/
theorem witness_DrawTwiceRestoresTheFramebuffer :
    ∃ s t s' : State, 1 ≤ 15 ∧ exec (.drw 0 1 1) s = .next t ∧ (∀ a, s'.mem.read a = s.mem.read a) ∧ s'.I = s.I ∧
      s'.readV 0 = s.readV 0 ∧ s'.readV 1 = s.readV 1 ∧
      (∀ (px : Fin 64) (py : Fin 32), s'.FB.pixel px py = t.FB.pixel px py) ∧
      (∃ (px : Fin 64) (py : Fin 32), spriteCovers Config.spriteEdge s 0 1 1 px py) ∧
      ∀ (px : Fin 64) (py : Fin 32), spriteCovers Config.spriteEdge s 0 1 1 px py → s.FB.pixel px py = false := by
  let t := sprite.withCore
    (drawSprite Config.spriteEdge 0 1 (sprite.mem.readBytes sprite.base 1) sprite.toCoreState)
  have hr : exec (.drw 0 1 1) sprite = .next t := (execDrw_eq 0 1 1 sprite).trans (if_pos (by decide))
  refine ⟨sprite, t, t, by decide, hr, fun _ => rfl, rfl, ?_, ?_, fun _ _ => rfl, ⟨0, 0, sprite_covers⟩, ?_⟩
  · decide
  · decide
  · intro px py _
    show (Vector.replicate 32 (Vector.replicate 64 false))[py][px] = false
    simp

theorem witness_DirtyFlagIsSticky : ∃ s t : State, step s = .next t ∧ s.DIRTY = true :=
  ⟨(put (CoreState.reset.setDIRTY true)).withFetchWord 16 0x1234, _, rfl, rfl⟩

theorem witness_KeySkips : ∃ (x : Reg) (s : State) (k : Key), k.val = (s.readV x).toNat % 16 ∧ s.keyDown k = true :=
  ⟨2, put (opSetKey 15 (withRegs [(2, 0xFF)])), 15, by decide, by decide⟩

theorem witness_WaitForKeyTakesTheLowest :
    (∃ (s : State) (k : Key), s.keyDown k = true ∧ (∀ j : Key, j < k → s.keyDown j = false) ∧ k = 0) ∧
    (∃ (s : State) (k : Key), s.keyDown k = true ∧ (∀ j : Key, j < k → s.keyDown j = false) ∧ k = 15) ∧
    ∃ s : State, ∀ k : Key, s.keyDown k = false :=
  ⟨⟨put (opSetKey 0 (opSetKey 7 CoreState.reset)), 0, by decide, by decide, rfl⟩,
   ⟨put (opSetKey 15 CoreState.reset), 15, by decide, by decide, rfl⟩, State.reset, by decide⟩

theorem witness_SoundTimerWrite : ∃ (x : Reg) (s : State), s.nextInstr = .ok (.ldStVx x) ∧ s.readV x = 0x1E :=
  ⟨5, (put (withRegs [(5, 0x1E)])).withFetchWord 16 0xF518, rfl, by decide⟩

theorem witness_StepNeverCountsTimersOrMovesKeys :
    ∃ s t : State, step s = .next t ∧ s.DT = 4 ∧ s.keyDown 3 = true :=
  ⟨(put (opSetKey 3 (CoreState.reset.setDT 4))).withFetchWord 16 0x1234, _, rfl, rfl, by decide⟩

/-- P5 in small: `Fx15`, then ticks with a key event and a step of another instruction between them. -/
theorem witness_DelayReadsLastWriteMinusTicks :
    ∃ (x : Reg) (ops : List Operation) (s t : State) (u : CoreState), exec (.ldDtVx x) s = .next t ∧
      noDelayWrite ops t.toCoreState ∧ runSchedule ops t.toCoreState = some u ∧ ops.count .tick = 2 ∧ u.DT = 5 :=
  ⟨0, [.tick, .setKey 3, .step 0xB7, .tick], put (poked 0x202 [0x6A, 0x05] (withRegs [(0, 7)])), _, _, rfl,
   ⟨by decide, nofun, fun _ _ h => by
      cases h
      refine ⟨by decide, nofun, fun _ _ h => ?_⟩
      cases h
      refine ⟨by decide, fun _ _ _ h => (by cases h), fun _ _ h => ?_⟩
      cases h
      exact ⟨by decide, nofun, fun _ _ _ => trivial⟩⟩, rfl, by decide, by decide⟩

theorem witness_LoadProgramCopiesOrRejects :
    (∃ (bytes : List Byte) (s : CoreState), s.mem.wf ∧ bytes.length ≤ 3584 ∧ bytes.length = 3584) ∧
    ∃ (bytes : List Byte) (s : CoreState), s.mem.wf ∧ 3584 < bytes.length ∧ bytes.length = 3585 :=
  ⟨⟨List.replicate 3584 1, CoreState.reset, by decide, by rw [List.length_replicate], List.length_replicate⟩,
   List.replicate 3585 1, CoreState.reset, by decide, by rw [List.length_replicate]; decide, List.length_replicate⟩

theorem witness_StepFaultRepeats :
    ∃ (op : Operation) (s t : CoreState) (r : Report) (f : Fault) (rnd : Byte), coreStep rnd s = .fault f ∧
      perform op s = some (t, r) ∧
      ((∃ b, op = .step b) ∨ op = .tick ∨ op = .clearDirty ∨ (∃ k, op = .setKey k) ∨ ∃ k, op = .clearKey k) :=
  ⟨.tick, CoreState.reset.setDT 1, _, _, .unknownOpcode, 0xB7, rfl, rfl, .inr (.inl rfl)⟩

theorem witness_SelfJumpIsForEver : ∃ s : State, atSelfJump s := ⟨selfJump, by decide, by decide⟩

/-- Two states that differ in `ST`, `DIRTY` and a dead stack entry. -/
theorem witness_ProgramCannotSeeSoundDirtyOrDeadStack : ∃ s s' : CoreState, sameToProgram s s' ∧ s ≠ s' :=
  ⟨CoreState.reset, ((CoreState.reset.setST 9).setDIRTY true).setStack (CoreState.reset.Stack.set 0 0x204),
   ⟨rfl, rfl, rfl, rfl, rfl, rfl, rfl, rfl, fun _ h => absurd h (Nat.not_lt_zero _)⟩, by decide⟩

end Sys2Proof.Machine.Tests
end

namespace Sys2Proof.Machine

/-! # Memory: the word a fetch reads (R54) -/

/-- Settles O6: within range the fetched word is the two bytes joined (`fetch_ok`), and a joined word has
the big-endian value and gives both bytes back. -/
theorem fetchIsBigEndian : Obligations.FetchIsBigEndian := by
  intro s hpc
  exact ⟨_, CoreState.fetch_ok hpc, toNat_joinBytes _ _, hiByte_join _ _, loByte_join _ _⟩

end Sys2Proof.Machine

namespace Sys2Proof.Machine

/-! # Control flow: the skips (R97, R98) -/

namespace CoreState

/-- A skip touches the program counter alone. -/
theorem coreUnchanged_skipIf (s : CoreState) (c : Bool) : coreUnchanged [.pc] s (s.skipIf c) := by
  intro f hf
  cases f with
  | pc => exact absurd (List.mem_singleton_self _) hf
  | _ => simp [agreeOn]

/-- The advance of a skip as an integer, wrapping at 65536. -/
theorem toNat_skipIf_pc (s : CoreState) (c : Bool) :
    (s.skipIf c).pc.toNat = (s.pc.toNat + if c then 4 else 2) % 65536 := by
  cases c <;> simp [BitVec.toNat_add]

end CoreState

/-- The state a skip instruction answers, when its condition decides the proposition `p`. -/
theorem withCore_skipIf_spec (s : State) {c : Bool} {p : Prop} [Decidable p] (hc : c = true ↔ p) :
    (s.withCore (s.skipIf c)).pc.toNat = (s.pc.toNat + if p then 4 else 2) % 65536 ∧
      Unchanged [.pc] s (s.withCore (s.skipIf c)) := by
  refine ⟨?_, unchanged_withCore (CoreState.coreUnchanged_skipIf _ c)⟩
  simp only [← hc]
  exact CoreState.toNat_skipIf_pc s.toCoreState c

/-- Settles O28: both forms are a skip (`withCore_skipIf_spec`); the condition of `3xkk` is the equality of the two bytes, that
of `4xkk` its negation. -/
theorem immediateSkips : Obligations.ImmediateSkips := by
  intro x kk s
  have heq : (s.readV x == kk) = true ↔ (s.readV x).toNat = kk.toNat := by
    rw [beq_iff_eq, BitVec.toNat_inj]
  have hne : (s.readV x != kk) = true ↔ ¬ (s.readV x).toNat = kk.toNat := by
    rw [bne_iff_ne, ne_eq, BitVec.toNat_inj]
  refine ⟨⟨_, rfl, withCore_skipIf_spec s heq⟩, _, rfl, ?_⟩
  rw [← ite_not]
  exact withCore_skipIf_spec s hne

end Sys2Proof.Machine

namespace Sys2Proof.Machine

/-! # Register ALU: one register written, no flag (R110 to R112) -/

namespace CoreState

/-- Writing one register and advancing touches the register file and the program counter alone. -/
theorem coreUnchanged_writeV_advance (s : CoreState) (x : Reg) (v : Byte) :
    coreUnchanged [.pc, .V] s (s.writeV x v).advance := by
  intro f hf
  cases f with
  | pc | V => exact absurd (by simp) hf
  | _ => simp [agreeOn]

end CoreState

/-- The state an instruction answers that writes `v` to `V[x]`, writes no flag and advances. -/
theorem withCore_writeV_advance_spec (s : State) (x : Reg) (v : Byte) :
    (s.withCore (s.writeV x v).advance).readV x = v ∧ regsKept [x] s (s.withCore (s.writeV x v).advance) ∧
      Unchanged [.pc, .V] s (s.withCore (s.writeV x v).advance) := by
  refine ⟨by simp, fun r hr => ?_, unchanged_withCore (CoreState.coreUnchanged_writeV_advance _ x v)⟩
  have hne : r ≠ x := List.ne_of_not_mem_cons hr
  simp [hne]

/-- Settles O30: each form is one register write (`withCore_writeV_advance_spec`) of the value its rule gives; the sum of
`7xkk` is that of bytes, which wraps at 256. -/
theorem loadAndAddImmediateAndMove : Obligations.LoadAndAddImmediateAndMove := by
  intro x y kk s
  refine ⟨⟨_, rfl, withCore_writeV_advance_spec s x kk⟩, ?_,
    _, rfl, withCore_writeV_advance_spec s x (s.readV y)⟩
  obtain ⟨hx, hframe⟩ := withCore_writeV_advance_spec s x (s.readV x + kk)
  have hsum : (s.readV x + kk).toNat = ((s.readV x).toNat + kk.toNat) % 256 := BitVec.toNat_add _ _
  exact ⟨_, rfl, (congrArg BitVec.toNat hx).trans hsum, hframe⟩

end Sys2Proof.Machine

namespace Sys2Proof.Machine

/-! # Index register: loading I (R130) -/

namespace CoreState

/-- Setting the index register and advancing touches `I` and the program counter alone. -/
theorem coreUnchanged_setI_advance (s : CoreState) (v : Word) : coreUnchanged [.pc, .I] s (s.setI v).advance := by
  intro f hf
  cases f with
  | pc | I => exact absurd (by simp) hf
  | _ => simp [agreeOn]

end CoreState

/-- Settles O36: the index register is set to the zero-extended `nnn`, which keeps its value (`toNat_zext16`), and the program
counter advances. -/
theorem loadIndex : Obligations.LoadIndex := by
  intro nnn s
  exact ⟨_, rfl, toNat_zext16 nnn, unchanged_withCore (CoreState.coreUnchanged_setI_advance _ (zext16 nnn))⟩

end Sys2Proof.Machine

namespace Sys2Proof.Machine

/-! # Display: clearing the screen (R140) -/

namespace CoreState

/-- Setting the framebuffer and the dirty flag and advancing touches those two and the program counter alone. -/
theorem coreUnchanged_setFB_setDIRTY_advance (s : CoreState) (fb : Frame) (d : Bool) :
    coreUnchanged [.pc, .FB, .DIRTY] s ((s.setFB fb).setDIRTY d).advance := by
  intro f hf
  cases f with
  | pc | FB | DIRTY => exact absurd (by simp) hf
  | _ => simp [agreeOn]

/-- The default advance as an integer, wrapping at 65536 (R92). -/
theorem toNat_advance_pc (s : CoreState) : s.advance.pc.toNat = (s.pc.toNat + 2) % 65536 := BitVec.toNat_add _ _

end CoreState

/-- The `fb_changed` of a step is that of the instruction it executes (R93). -/
theorem frameStep_of_nextInstr {s : CoreState} {i : Instr} (h : s.nextInstr = .ok i) : frameStep s = changesFrame i := by
  simp only [frameStep, h]

/-- A step that completes answers its state with status `Ok` (R93). -/
theorem opStep_of_next {rnd : Byte} {s t : CoreState} (h : coreStep rnd s = .next t) :
    opStep rnd s = some (t, ⟨.ok, frameStep s, t.ST⟩) := by
  simp only [opStep, h]

/-- The step of an instruction that completes and uses no input: its state and its outputs, whatever the input (R93). -/
theorem opStep_of_exec_next {s t : State} {i : Instr} (hn : s.nextInstr = .ok i) (hi : inputsUsed i = 0)
    (he : exec i s = .next t) (rnd : Byte) :
    opStep rnd s.toCoreState = some (t.toCoreState, ⟨.ok, changesFrame i, t.ST⟩) := by
  have hstep : coreStep rnd s.toCoreState = .next t.toCoreState := by
    rw [coreStep_eq_exec hn hi, he, coreOutcome]
  rw [opStep_of_next hstep, frameStep_of_nextInstr hn]

/-- Settles O43: the framebuffer becomes the blank one (`pixel_blank`); `00E0` uses no input, so its step answers the same
state for every input (`opStep_of_exec_next`), and it is one of the two instructions that report a changed frame. -/
theorem clearScreen : Obligations.ClearScreen := by
  intro s
  refine ⟨s.withCore ((s.setFB Frame.blank).setDIRTY true).advance, rfl, pixel_blank, rfl,
    CoreState.toNat_advance_pc _, unchanged_withCore (CoreState.coreUnchanged_setFB_setDIRTY_advance _ _ _),
    fun hn rnd => ?_⟩
  exact ⟨_, opStep_of_exec_next hn rfl rfl rnd, rfl, rfl⟩

end Sys2Proof.Machine

namespace Sys2Proof.Machine

/-! # Timers: reading and writing the delay timer (R152, R154) -/

namespace CoreState

/-- Setting the delay timer and advancing touches `DT` and the program counter alone. -/
theorem coreUnchanged_setDT_advance (s : CoreState) (v : Byte) : coreUnchanged [.pc, .DT] s (s.setDT v).advance := by
  intro f hf
  cases f with
  | pc | DT => exact absurd (by simp) hf
  | _ => simp [agreeOn]

end CoreState

/-- Settles O50: `Fx07` is one register write (`withCore_writeV_advance_spec`) of the delay timer; `Fx15` sets the delay timer
to `V[x]` and touches only the program counter beside it (`coreUnchanged_setDT_advance`). -/
theorem delayTimerReadAndWrite : Obligations.DelayTimerReadAndWrite := by
  intro x s
  constructor
  · obtain ⟨hx, hregs, hframe⟩ := withCore_writeV_advance_spec s x s.DT
    exact ⟨_, rfl, hx, CoreState.toNat_advance_pc _, hregs, hframe⟩
  · exact ⟨_, rfl, rfl, CoreState.toNat_advance_pc _,
      unchanged_withCore (CoreState.coreUnchanged_setDT_advance _ (s.readV x))⟩

end Sys2Proof.Machine

namespace Sys2Proof

/-! # The decoder accepts only words of the opcode map (R74, R75) -/

/-- Every instruction's row is one of the 34. -/
theorem row_mem_opcodeMap (i : Instr) : i.row ∈ opcodeMap := by
  cases i <;> simp [opcodeMap, Instr.row]

section masks
variable {op : Word} {f : BitVec 4}

theorem and_F000_of_family (hf : fieldFamily op = f) : op &&& 0xF000 = wordNNN f 0 := by
  rw [mask_family, hf]

theorem and_F00F_of_family_n {n : BitVec 4} (hf : fieldFamily op = f) (hn : fieldN op = n) :
    op &&& 0xF00F = wordXYN f 0 0 n := by
  rw [mask_family_n, hf, hn]

theorem and_F0FF_of_family_kk {kk : Byte} (hf : fieldFamily op = f) (hk : fieldKK op = kk) :
    op &&& 0xF0FF = wordXKK f 0 kk := by
  rw [mask_family_kk, hf, hk]

end masks

section rows
variable {op : Word} {i : Instr}

theorem decodeFamily0_matches_row (h : decodeFamily0 op = some i) : op &&& i.row.mask = i.row.value := by
  unfold decodeFamily0 at h
  split at h
  · next h0 => subst h0; cases h; rfl
  split at h
  · next h0 => subst h0; cases h; rfl
  · cases h

/-- In family 8 the low nibble selects the row. -/
theorem decodeFamily8_matches_row (hf : fieldFamily op = 0x8) (h : decodeFamily8 op = some i) :
    op &&& i.row.mask = i.row.value := by
  unfold decodeFamily8 at h
  split at h <;> cases h
  all_goals exact and_F00F_of_family_n hf ‹_›

/-- In family E the low byte selects the row. -/
theorem decodeFamilyE_matches_row (hf : fieldFamily op = 0xE) (h : decodeFamilyE op = some i) :
    op &&& i.row.mask = i.row.value := by
  unfold decodeFamilyE at h
  split at h <;> cases h
  all_goals exact and_F0FF_of_family_kk hf ‹_›

/-- In family F the low byte selects the row. -/
theorem decodeFamilyF_matches_row (hf : fieldFamily op = 0xF) (h : decodeFamilyF op = some i) :
    op &&& i.row.mask = i.row.value := by
  unfold decodeFamilyF at h
  split at h <;> cases h
  all_goals exact and_F0FF_of_family_kk hf ‹_›

/-- A decoded word matches the row of its instruction: families 0, 8, E and F by their selectors, the others by the
family alone. -/
theorem decodeWord_matches_row (h : decodeWord op = some i) : op &&& i.row.mask = i.row.value := by
  unfold decodeWord at h
  split at h
  case h_1 => exact decodeFamily0_matches_row h
  case h_9 hf => exact decodeFamily8_matches_row hf h
  case h_15 hf => exact decodeFamilyE_matches_row hf h
  case h_16 hf => exact decodeFamilyF_matches_row hf h
  case h_17 => cases h
  all_goals
    cases h
    exact and_F000_of_family ‹_›

/-- A word in no row is rejected (R80). -/
theorem decodeWord_eq_none_of_no_row (h : ∀ row ∈ opcodeMap, op &&& row.mask ≠ row.value) : decodeWord op = none := by
  rcases hd : decodeWord op with _ | i
  · rfl
  · exact absurd (decodeWord_matches_row hd) (h i.row (row_mem_opcodeMap i))

end rows

end Sys2Proof

namespace Sys2Proof.Machine

/-! # Exceptions: the unknown opcode (R161) -/

/-- The decode phase faults on a fetched word that is no instruction (R90). -/
theorem CoreState.nextInstr_of_decodeWord_none {s : CoreState} {op : Word} (hf : s.fetch = .ok op)
    (hd : decodeWord op = none) : s.nextInstr = .error .unknownOpcode := by
  simp only [nextInstr, hf, hd]

/-- A fault of the fetch or decode phase is the fault of the step. -/
theorem step_of_nextInstr_error {s : State} {f : Fault} (h : s.nextInstr = .error f) : step s = .fault f := by
  simp only [step, h, raise]

/-- A fault of the fetch or decode phase leaves the core as it was, whatever the input (R91). -/
theorem opStep_of_nextInstr_error {s : CoreState} {f : Fault} (h : s.nextInstr = .error f) (rnd : Byte) :
    opStep rnd s = some (s, ⟨.fault f, false, s.ST⟩) := by
  simp only [opStep, coreStep, h]

/-- Settles O8: a word in no row is rejected by the decoder (`decodeWord_eq_none_of_no_row`), and a fault of the decode
phase is the step's, with the state as it was (`step_of_nextInstr_error`, `opStep_of_nextInstr_error`). -/
theorem unmatchedWordIsUnknownOpcode : Obligations.UnmatchedWordIsUnknownOpcode := by
  intro s op hfetch hrow
  have hfault : s.nextInstr = .error .unknownOpcode :=
    CoreState.nextInstr_of_decodeWord_none hfetch (decodeWord_eq_none_of_no_row hrow)
  exact ⟨step_of_nextInstr_error hfault, fun rnd => ⟨_, opStep_of_nextInstr_error hfault rnd, rfl⟩⟩

end Sys2Proof.Machine

namespace Sys2Proof.Machine

/-! # Reset: the state it leaves (R37, R190) -/

namespace Memory

/-- The reset contents of a font address are the font's byte (R33). -/
theorem unlisted_of_lt {a : Nat} (h : a < Config.fontLen) : unlisted a = Config.font[a] := dif_pos h

/-- The reset contents above the font are 0 (R33). -/
theorem unlisted_of_le {a : Nat} (h : Config.fontLen ≤ a) : unlisted a = 0 := dif_neg (Nat.not_lt.2 h)

end Memory

namespace CoreState

@[simp] theorem reset_read (a : Nat) : reset.mem.read a = Memory.unlisted a := rfl

@[simp] theorem reset_readV (r : Reg) : reset.readV r = 0 := Vector.getElem_replicate r.isLt

@[simp] theorem reset_Stack_get (i : Fin 16) : reset.Stack[i] = 0 := Vector.getElem_replicate i.isLt

/-- The framebuffer after reset is the blank one. -/
@[simp] theorem reset_FB : reset.FB = Frame.blank := rfl

@[simp] theorem reset_keyDown (k : Key) : reset.keyDown k = false := Vector.getElem_replicate k.isLt

/-- The model's reset state is the one of the table of R37: memory reads as its reset contents (`unlisted_of_lt` for the
font, `unlisted_of_le` above it), every vector reads 0 throughout, and the scalars are what `reset` sets. -/
theorem reset_isResetState : IsResetState reset := by
  have hfont : ∀ a (h : a < Config.fontLen), reset.mem.read a = Config.font[a] := fun a h =>
    (reset_read a).trans (Memory.unlisted_of_lt h)
  have hzero : ∀ a, Config.fontLen ≤ a → a < Config.memSize → reset.mem.read a = 0 := fun a h _ =>
    (reset_read a).trans (Memory.unlisted_of_le h)
  have hpixel : ∀ (x : Fin 64) (y : Fin 32), reset.FB.pixel x y = false := by
    rw [reset_FB]
    exact pixel_blank
  exact ⟨hfont, hzero, reset_readV, rfl, rfl, rfl, reset_Stack_get, rfl, rfl, hpixel, reset_keyDown, rfl⟩

end CoreState

/-- The core after `opReset` is the reset state, whatever the core before (R190). -/
@[simp] theorem opReset_eq_reset (s : CoreState) : opReset s = CoreState.reset := rfl

/-- Settles O17: the state the model starts from and the state after every `opReset` (`opReset_eq_reset`) are both
`CoreState.reset`, which fills the table of R37 (`reset_isResetState`). -/
theorem resetLeavesTheResetState : Obligations.ResetLeavesTheResetState := by
  refine ⟨CoreState.reset_isResetState, fun s => ?_⟩
  rw [opReset_eq_reset]
  exact CoreState.reset_isResetState

end Sys2Proof.Machine

namespace Sys2Proof

/-! # Decoding and encoding are inverse to each other (R70 to R75) -/

/-- Decoding the word of a well-formed instruction gives it back: the fields of each format are the operands it was built
from. -/
theorem decodeWord_encode {i : Instr} (hi : i.wellFormed = true) : decodeWord (encode i) = some i := by
  cases i with
  | cls | ret => decide
  | jp nnn | call nnn | ldI nnn | jpV0 nnn => simp only [encode, decodeWord, BitVec.ofNat_eq_ofNat, family_wordNNN, nnn_wordNNN]
  | seImm x kk | sneImm x kk | ldImm x kk | addImm x kk | rnd x kk =>
    simp only [encode, decodeWord, BitVec.ofNat_eq_ofNat, family_wordXKK, x_wordXKK, kk_wordXKK]
  | seReg x y lo | sneReg x y lo =>
    simp only [encode, decodeWord, BitVec.ofNat_eq_ofNat, family_wordXYN, x_wordXYN, y_wordXYN, n_wordXYN]
  | drw x y n =>
    have hn : n ≤ 15 := of_decide_eq_true hi
    have hnib : (BitVec.ofNat 4 n).toNat = n := Nat.mod_eq_of_lt (by omega)
    simp only [encode, decodeWord, BitVec.ofNat_eq_ofNat, family_wordXYN, x_wordXYN, y_wordXYN, n_wordXYN, hnib]
  | ldReg x y | or x y | and x y | xor x y | addReg x y | sub x y | shr x y | subn x y | shl x y =>
    simp only [encode, decodeWord, decodeFamily8, BitVec.ofNat_eq_ofNat, family_wordXYN, x_wordXYN, y_wordXYN, n_wordXYN]
  | skp x | sknp x =>
    simp only [encode, decodeWord, decodeFamilyE, BitVec.ofNat_eq_ofNat, family_wordXKK, x_wordXKK, kk_wordXKK]
  | ldVxDt x | ldVxK x | ldDtVx x | ldStVx x | addI x | ldF x | ldB x | stRegs x | ldRegs x =>
    simp only [encode, decodeWord, decodeFamilyF, BitVec.ofNat_eq_ofNat, family_wordXKK, x_wordXKK, kk_wordXKK]

/-- Decoding a byte stream decodes the word of its first two bytes (R54, R70). -/
theorem decode_of_decodeWord {op : Word} {i : Instr} (h : decodeWord op = some i) (rest : List Byte) :
    decode (hiByte op :: loByte op :: rest) = .ok (i, rest) := by
  simp only [decode, joinBytes_hi_lo, h]

/-- Settles O1: the word decoder inverts the encoder (`decodeWord_encode`), and the byte decoder reads the word of its two
bytes (`decode_of_decodeWord`). -/
theorem decodeOfEncodeIsIdentity : Obligations.DecodeOfEncodeIsIdentity := by
  intro i rest hi
  have hword := decodeWord_encode hi
  exact ⟨hword, decode_of_decodeWord hword rest⟩

section accepted
variable {op : Word} {i : Instr}

/-- A word of known family is a word of format NNN. -/
theorem wordNNN_of_family {f : BitVec 4} (hf : fieldFamily op = f) : wordNNN f (fieldNNN op) = op :=
  hf ▸ wordNNN_fields op

/-- A word of known family is a word of format XKK. -/
theorem wordXKK_of_family {f : BitVec 4} (hf : fieldFamily op = f) : wordXKK f (fieldX op) (fieldKK op) = op :=
  hf ▸ wordXKK_fields op

/-- A word of known family and low byte is a word of format XKK with that byte. -/
theorem wordXKK_of_family_kk {f : BitVec 4} {kk : Byte} (hf : fieldFamily op = f) (hk : fieldKK op = kk) :
    wordXKK f (fieldX op) kk = op :=
  hk ▸ wordXKK_of_family hf

/-- A word of known family is a word of format XYN. -/
theorem wordXYN_of_family {f : BitVec 4} (hf : fieldFamily op = f) :
    wordXYN f (fieldX op) (fieldY op) (fieldN op) = op :=
  hf ▸ wordXYN_fields op

/-- A word of known family and low nibble is a word of format XYN with that nibble. -/
theorem wordXYN_of_family_n {f n : BitVec 4} (hf : fieldFamily op = f) (hn : fieldN op = n) :
    wordXYN f (fieldX op) (fieldY op) n = op :=
  hn ▸ wordXYN_of_family hf

theorem encode_of_decodeFamily0 (h : decodeFamily0 op = some i) : i.wellFormed = true ∧ encode i = op := by
  unfold decodeFamily0 at h
  split at h
  · next h0 => cases h; exact ⟨rfl, h0.symm⟩
  split at h
  · next h0 => cases h; exact ⟨rfl, h0.symm⟩
  · cases h

theorem encode_of_decodeFamily8 (hf : fieldFamily op = 0x8) (h : decodeFamily8 op = some i) :
    i.wellFormed = true ∧ encode i = op := by
  unfold decodeFamily8 at h
  split at h <;> cases h
  all_goals exact ⟨rfl, wordXYN_of_family_n hf ‹_›⟩

theorem encode_of_decodeFamilyE (hf : fieldFamily op = 0xE) (h : decodeFamilyE op = some i) :
    i.wellFormed = true ∧ encode i = op := by
  unfold decodeFamilyE at h
  split at h <;> cases h
  all_goals exact ⟨rfl, wordXKK_of_family_kk hf ‹_›⟩

theorem encode_of_decodeFamilyF (hf : fieldFamily op = 0xF) (h : decodeFamilyF op = some i) :
    i.wellFormed = true ∧ encode i = op := by
  unfold decodeFamilyF at h
  split at h <;> cases h
  all_goals exact ⟨rfl, wordXKK_of_family_kk hf ‹_›⟩

/-- The row count `Dxyn` decodes to is the low nibble, and encodes to it again. -/
theorem encode_drw_fields (hf : fieldFamily op = 0xD) :
    (Instr.drw (fieldX op) (fieldY op) (fieldN op).toNat).wellFormed = true ∧
      encode (.drw (fieldX op) (fieldY op) (fieldN op).toNat) = op := by
  have hn := (fieldN op).isLt
  refine ⟨decide_eq_true (by omega), ?_⟩
  rw [encode, BitVec.ofNat_toNat, BitVec.setWidth_eq, wordXYN_of_family hf]

/-- No bit of an accepted word is lost: it is the encoding of the well-formed instruction it decodes to. -/
theorem encode_of_decodeWord (h : decodeWord op = some i) : i.wellFormed = true ∧ encode i = op := by
  unfold decodeWord at h
  split at h
  case h_1 => exact encode_of_decodeFamily0 h
  case h_9 hf => exact encode_of_decodeFamily8 hf h
  case h_15 hf => exact encode_of_decodeFamilyE hf h
  case h_16 hf => exact encode_of_decodeFamilyF hf h
  case h_17 => cases h
  all_goals cases h
  case h_14 hf => exact encode_drw_fields hf
  case h_2 | h_3 | h_11 | h_12 => exact ⟨rfl, wordNNN_of_family ‹_›⟩
  case h_4 | h_5 | h_7 | h_8 | h_13 => exact ⟨rfl, wordXKK_of_family ‹_›⟩
  case h_6 | h_10 => exact ⟨rfl, wordXYN_of_family ‹_›⟩

end accepted

/-- Settles O2: by the family of the word and, in families 8, E and F, its selector (`encode_of_decodeWord`). -/
theorem encodeOfDecodeIsIdentity : Obligations.EncodeOfDecodeIsIdentity := fun _ _ h => encode_of_decodeWord h

/-! # The opcode map and the illegal words (R75 to R80) -/

section rows
variable {op : Word}

/-- The family of a word that matches a row under the mask 0xF000. -/
theorem family_of_and_F000 {v : Word} (h : op &&& 0xF000 = v) : fieldFamily op = fieldFamily v := by
  rw [← h, mask_family, family_wordNNN]

/-- The family and low nibble of a word that matches a row under the mask 0xF00F. -/
theorem family_n_of_and_F00F {v : Word} (h : op &&& 0xF00F = v) :
    fieldFamily op = fieldFamily v ∧ fieldN op = fieldN v := by
  rw [← h, mask_family_n, family_wordXYN, n_wordXYN]
  exact ⟨rfl, rfl⟩

/-- The family and low byte of a word that matches a row under the mask 0xF0FF. -/
theorem family_kk_of_and_F0FF {v : Word} (h : op &&& 0xF0FF = v) :
    fieldFamily op = fieldFamily v ∧ fieldKK op = fieldKK v := by
  rw [← h, mask_family_kk, family_wordXKK, kk_wordXKK]
  exact ⟨rfl, rfl⟩

/-- Each of the 34 rows is the row of some instruction. -/
theorem exists_row_eq {row : OpcodeRow} (h : row ∈ opcodeMap) : ∃ j : Instr, j.row = row := by
  have hmap : ∀ r ∈ opcodeMap, ∃ j : Instr, j.row = r := by
    simp only [opcodeMap, List.cons_append, List.nil_append, List.forall_mem_cons, exists_apply_eq_apply, true_and,
      List.not_mem_nil, false_imp_iff, implies_true]
  exact hmap row h

/-- A word that matches the row of an instruction decodes to an instruction of that row: the mask keeps exactly the
fields the decoder compares. -/
theorem decodeWord_of_matches_row (j : Instr) (h : op &&& j.row.mask = j.row.value) :
    ∃ i, decodeWord op = some i ∧ i.row = j.row := by
  cases j with
  | cls | ret =>
    obtain rfl : op = _ := (BitVec.and_allOnes (x := op)).symm.trans h
    exact ⟨_, rfl, rfl⟩
  | jp | call | seImm | sneImm | seReg | ldImm | addImm | sneReg | ldI | jpV0 | rnd | drw =>
    have hf := family_of_and_F000 h
    rw [decodeWord, hf]
    simp [fieldFamily, Instr.row]
  | ldReg | or | and | xor | addReg | sub | shr | subn | shl =>
    obtain ⟨hf, hn⟩ := family_n_of_and_F00F h
    rw [decodeWord, hf, decodeFamily8, hn]
    simp [fieldFamily, fieldN, Instr.row]
  | skp | sknp =>
    obtain ⟨hf, hk⟩ := family_kk_of_and_F0FF h
    rw [decodeWord, hf, decodeFamilyE, hk]
    simp [fieldFamily, fieldKK, Instr.row]
  | ldVxDt | ldVxK | ldDtVx | ldStVx | addI | ldF | ldB | stRegs | ldRegs =>
    obtain ⟨hf, hk⟩ := family_kk_of_and_F0FF h
    rw [decodeWord, hf, decodeFamilyF, hk]
    simp [fieldFamily, fieldKK, Instr.row]

/-- A word in a row of the opcode map decodes to an instruction of that row. -/
theorem decodeWord_of_mem_opcodeMap {row : OpcodeRow} (hmem : row ∈ opcodeMap) (h : op &&& row.mask = row.value) :
    ∃ i, decodeWord op = some i ∧ i.row = row := by
  obtain ⟨j, rfl⟩ := exists_row_eq hmem
  exact decodeWord_of_matches_row j h

end rows

/-- Settles O3: an accepted word lies in its instruction's row (`decodeWord_matches_row`), a word in a row is accepted as an
instruction of that row (`decodeWord_of_mem_opcodeMap`), and so two rows with a word in common are the row of the one
instruction it decodes to. -/
theorem decoderFollowsTheOpcodeMap : Obligations.DecoderFollowsTheOpcodeMap := by
  refine ⟨fun op i h => ⟨decodeWord_matches_row h, row_mem_opcodeMap i⟩,
    fun op row hmem h => decodeWord_of_mem_opcodeMap hmem h, fun op row row' hmem hmem' h h' => ?_⟩
  obtain ⟨i, hi, rfl⟩ := decodeWord_of_mem_opcodeMap hmem h
  obtain ⟨i', hi', rfl⟩ := decodeWord_of_mem_opcodeMap hmem' h'
  rw [hi, Option.some.injEq] at hi'
  rw [hi']

section illegal
variable (op : Word)

/-- Membership of a bit vector in a list, read as numbers. -/
theorem mem_iff_toNat_mem_map {w : Nat} (b : BitVec w) (l : List (BitVec w)) : b ∈ l ↔ b.toNat ∈ l.map BitVec.toNat :=
  (List.mem_map_of_injective fun _ _ => BitVec.eq_of_toNat_eq).symm

/-- A family as a number is the word div 4096 (R71). -/
theorem fieldFamily_eq_iff (f : BitVec 4) : fieldFamily op = f ↔ op.toNat / 4096 = f.toNat := by
  rw [← toNat_fieldFamily, BitVec.toNat_inj]

theorem decodeFamily0_eq_none : decodeFamily0 op = none ↔ op.toNat ≠ 0x00E0 ∧ op.toNat ≠ 0x00EE := by
  have hE0 : op = 0x00E0#16 ↔ op.toNat = 0x00E0 := BitVec.toNat_inj.symm
  have hEE : op = 0x00EE#16 ↔ op.toNat = 0x00EE := BitVec.toNat_inj.symm
  rw [ne_eq, ne_eq, ← hE0, ← hEE, decodeFamily0]
  split_ifs with h0 hE
  · simp [h0]
  · simp [hE]
  · simp [h0, hE]

/-- In family 8 the low nibbles without an instruction are 8 to D and F (R78). -/
theorem decodeFamily8_eq_none :
    decodeFamily8 op = none ↔ op.toNat % 16 ∈ [0x8, 0x9, 0xA, 0xB, 0xC, 0xD, 0xF] := by
  have others : ∀ n : BitVec 4, n ∈ [0x8#4, 0x9#4, 0xA#4, 0xB#4, 0xC#4, 0xD#4, 0xF#4] ↔
      n ∉ [0x0#4, 0x1#4, 0x2#4, 0x3#4, 0x4#4, 0x5#4, 0x6#4, 0x7#4, 0xE#4] := by decide
  have key : decodeFamily8 op = none ↔ fieldN op ∈ [0x8#4, 0x9#4, 0xA#4, 0xB#4, 0xC#4, 0xD#4, 0xF#4] := by
    rw [others, decodeFamily8]
    split <;> simp_all
  rw [key, mem_iff_toNat_mem_map, toNat_fieldN]
  rfl

/-- In family E the low bytes with an instruction are two (R79). -/
theorem decodeFamilyE_eq_none : decodeFamilyE op = none ↔ op.toNat % 256 ∉ [0x9E, 0xA1] := by
  have key : decodeFamilyE op = none ↔ fieldKK op ∉ [0x9E#8, 0xA1#8] := by
    rw [decodeFamilyE]
    split <;> simp_all
  rw [key, mem_iff_toNat_mem_map, toNat_fieldKK]
  rfl

/-- In family F the low bytes with an instruction are nine (R79). -/
theorem decodeFamilyF_eq_none : decodeFamilyF op = none ↔
    op.toNat % 256 ∉ [0x07, 0x0A, 0x15, 0x18, 0x1E, 0x29, 0x33, 0x55, 0x65] := by
  have key : decodeFamilyF op = none ↔
      fieldKK op ∉ [0x07#8, 0x0A#8, 0x15#8, 0x18#8, 0x1E#8, 0x29#8, 0x33#8, 0x55#8, 0x65#8] := by
    rw [decodeFamilyF]
    split <;> simp_all
  rw [key, mem_iff_toNat_mem_map, toNat_fieldKK]
  rfl

/-- Only the families 0, 8, E and F have words without an instruction (R80). -/
theorem decodeWord_eq_none : decodeWord op = none ↔
    (fieldFamily op = 0x0#4 ∧ decodeFamily0 op = none) ∨ (fieldFamily op = 0x8#4 ∧ decodeFamily8 op = none) ∨
      (fieldFamily op = 0xE#4 ∧ decodeFamilyE op = none) ∨ (fieldFamily op = 0xF#4 ∧ decodeFamilyF op = none) := by
  have listed : ∀ f : BitVec 4, f ∈ [0x0#4, 0x1#4, 0x2#4, 0x3#4, 0x4#4, 0x5#4, 0x6#4, 0x7#4, 0x8#4, 0x9#4, 0xA#4,
      0xB#4, 0xC#4, 0xD#4, 0xE#4, 0xF#4] := by decide
  unfold decodeWord
  split
  case h_17 => exact absurd (listed (fieldFamily op)) (by simp_all)
  all_goals simp [*]

end illegal

/-- Settles O4: only four families have words without an instruction (`decodeWord_eq_none`), and in each the selectors of
such words are known (`decodeFamily0_eq_none` and its companions). -/
theorem unknownWordsAreTheIllegalOnes : Obligations.UnknownWordsAreTheIllegalOnes := by
  intro op
  rw [decodeWord_eq_none, decodeFamily0_eq_none, decodeFamily8_eq_none, decodeFamilyE_eq_none, decodeFamilyF_eq_none,
    fieldFamily_eq_iff, fieldFamily_eq_iff, fieldFamily_eq_iff, fieldFamily_eq_iff]
  rfl

/-- Settles O5: the decoder is evaluated on the fifteen words of spec/95_test_vectors.md. -/
theorem wordsOfTheSpecDecode : Obligations.WordsOfTheSpecDecode := by
  unfold Obligations.WordsOfTheSpecDecode
  decide

end Sys2Proof

namespace Sys2Proof.Machine

/-! # Frames of single updates, and their composition -/

section frames
variable {l : List Field} {s t u : CoreState}

theorem agreeOn_trans {f : Field} (h : agreeOn s t f) (h' : agreeOn t u f) : agreeOn s u f := by
  cases f with
  | mem | V | Stack | KEY => exact fun a => (h' a).trans (h a)
  | FB => exact fun x y => (h' x y).trans (h x y)
  | _ => exact Eq.trans h' h

theorem coreUnchanged_trans (h : coreUnchanged l s t) (h' : coreUnchanged l t u) : coreUnchanged l s u :=
  fun f hf => agreeOn_trans (h f hf) (h' f hf)

variable (s)

theorem coreUnchanged_setMem (hl : .mem ∈ l) (v : Memory) : coreUnchanged l s (s.setMem v) := by
  intro f hf
  cases f <;> simp_all [agreeOn]

theorem coreUnchanged_setV (hl : .V ∈ l) (v : Vector Byte 16) : coreUnchanged l s (s.setV v) := by
  intro f hf
  cases f <;> simp_all [agreeOn]

theorem coreUnchanged_setPc (hl : .pc ∈ l) (v : Word) : coreUnchanged l s (s.setPc v) := by
  intro f hf
  cases f <;> simp_all [agreeOn]

theorem coreUnchanged_setStack (hl : .Stack ∈ l) (v : Vector Word 16) : coreUnchanged l s (s.setStack v) := by
  intro f hf
  cases f <;> simp_all [agreeOn]

theorem coreUnchanged_setSP (hl : .SP ∈ l) (v : Fin 17) : coreUnchanged l s (s.setSP v) := by
  intro f hf
  cases f <;> simp_all [agreeOn]

theorem coreUnchanged_setDT (hl : .DT ∈ l) (v : Byte) : coreUnchanged l s (s.setDT v) := by
  intro f hf
  cases f <;> simp_all [agreeOn]

theorem coreUnchanged_setST (hl : .ST ∈ l) (v : Byte) : coreUnchanged l s (s.setST v) := by
  intro f hf
  cases f <;> simp_all [agreeOn]

theorem coreUnchanged_setFB (hl : .FB ∈ l) (v : Frame) : coreUnchanged l s (s.setFB v) := by
  intro f hf
  cases f <;> simp_all [agreeOn]

theorem coreUnchanged_setKEY (hl : .KEY ∈ l) (v : Vector Bool 16) : coreUnchanged l s (s.setKEY v) := by
  intro f hf
  cases f <;> simp_all [agreeOn, CoreState.readV]

theorem coreUnchanged_setDIRTY (hl : .DIRTY ∈ l) (v : Bool) : coreUnchanged l s (s.setDIRTY v) := by
  intro f hf
  cases f <;> simp_all [agreeOn]

theorem coreUnchanged_advance (hl : .pc ∈ l) : coreUnchanged l s s.advance := coreUnchanged_setPc s hl _

end frames

/-! # The access matrix (R38): what each instruction changes -/

section effects
variable (s : CoreState)

/-- Writing the register file and advancing, as every instruction with a register destination does. -/
theorem coreUnchanged_setV_advance (v : Vector Byte 16) : coreUnchanged [.pc, .V] s (s.setV v).advance :=
  coreUnchanged_trans (coreUnchanged_setV s (by decide) v) (coreUnchanged_advance _ (by decide))

/-- Writing memory and advancing, as `Fx33` and `Fx55` do. -/
theorem coreUnchanged_setMem_advance (m : Memory) : coreUnchanged [.pc, .mem] s (s.setMem m).advance :=
  coreUnchanged_trans (coreUnchanged_setMem s (by decide) m) (coreUnchanged_advance _ (by decide))

/-- Writing the sound timer and advancing, as `Fx18` does. -/
theorem coreUnchanged_setST_advance (v : Byte) : coreUnchanged [.pc, .ST] s (s.setST v).advance :=
  coreUnchanged_trans (coreUnchanged_setST s (by decide) v) (coreUnchanged_advance _ (by decide))

/-- Moving the stack counter and jumping, as `00EE` does. -/
theorem coreUnchanged_setSP_setPc (n : Fin 17) (v : Word) : coreUnchanged [.pc, .SP] s ((s.setSP n).setPc v) :=
  coreUnchanged_trans (coreUnchanged_setSP s (by decide) n) (coreUnchanged_setPc _ (by decide) v)

/-- Writing the return stack, moving its counter and jumping, as `2nnn` does. -/
theorem coreUnchanged_setStack_setSP_setPc (st : Vector Word 16) (n : Fin 17) (v : Word) :
    coreUnchanged [.pc, .Stack, .SP] s (((s.setStack st).setSP n).setPc v) :=
  coreUnchanged_trans (coreUnchanged_setStack s (by decide) st)
    (coreUnchanged_mono (coreUnchanged_setSP_setPc _ n v) (by decide))

/-- Drawing a sprite. -/
theorem coreUnchanged_drawSprite (edge : Config.SpriteEdge) (x y : Reg) (sprite : List Byte) :
    coreUnchanged [.pc, .V, .FB, .DIRTY] s (drawSprite edge x y sprite s) := by
  have hFB := coreUnchanged_setFB s (l := [.pc, .V, .FB, .DIRTY]) (by decide)
  have hV := fun t => coreUnchanged_setV t (l := [.pc, .V, .FB, .DIRTY]) (by decide)
  have hDIRTY := fun t => coreUnchanged_setDIRTY t (l := [.pc, .V, .FB, .DIRTY]) (by decide)
  exact coreUnchanged_trans (coreUnchanged_trans (coreUnchanged_trans (hFB _) (hV _ _)) (hDIRTY _ _))
    (coreUnchanged_advance _ (by decide))

end effects

/-- When a guarded instruction answers a next state. -/
theorem guarded_eq_next {p : Prop} [Decidable p] {a t : State} {f : Fault} :
    (if p then .next a else .fault f : Result) = .next t ↔ p ∧ t = a := by
  split <;> simp [*, eq_comm]

/-- When a guarded instruction faults. -/
theorem guarded_eq_fault {p : Prop} [Decidable p] {a : State} {f g : Fault} :
    (if p then .next a else .fault f : Result) = .fault g ↔ ¬ p ∧ g = f := by
  split <;> simp [*, eq_comm]

section inversion
variable {x y : Reg} {n : Nat} {nnn : BitVec 12} {s t : State}

theorem execLdB_next (h : execLdB x s = .next t) : s.base + 2 ≤ 0xFFF ∧
    t = s.withCore (s.setMem (s.mem.writeBytes s.base (bcdDigits (s.readV x)))).advance :=
  guarded_eq_next.1 (execLdB_eq x s ▸ h)

theorem execStRegs_next (h : execStRegs x s = .next t) : s.base + x.val ≤ 0xFFF ∧
    t = s.withCore (s.setMem (s.mem.writeBytes s.base (s.firstRegs (x.val + 1)))).advance :=
  guarded_eq_next.1 (execStRegs_eq x s ▸ h)

theorem execLdRegs_next (h : execLdRegs x s = .next t) : s.base + x.val ≤ 0xFFF ∧
    t = s.withCore (s.writeFirstRegs (s.mem.readBytes s.base (x.val + 1))).advance :=
  guarded_eq_next.1 (execLdRegs_eq x s ▸ h)

theorem execDrw_next (h : execDrw x y n s = .next t) : (n = 0 ∨ s.base + n - 1 ≤ 0xFFF) ∧
    t = s.withCore (drawSprite Config.spriteEdge x y (s.mem.readBytes s.base n) s.toCoreState) :=
  guarded_eq_next.1 (execDrw_eq x y n s ▸ h)

theorem execCall_next (h : execCall nnn s = .next t) : ∃ hs : s.SP.val < 16,
    t = s.withCore (((s.setStack (s.Stack.set s.SP.val s.pc)).setSP ⟨s.SP.val + 1, by omega⟩).setPc (zext16 nnn)) := by
  rw [execCall_eq] at h
  split at h
  · cases h; exact ⟨‹_›, rfl⟩
  · cases h

theorem execRet_next (h : execRet s = .next t) : ∃ i : Fin 16, s.SP.val = i.val + 1 ∧
    t = s.withCore ((s.setSP ⟨i.val, by omega⟩).setPc (s.Stack[i] + 2)) := by
  rcases execRet_cases s with ⟨i, hi, e⟩ | ⟨-, e⟩ <;> rw [e] at h <;> cases h
  exact ⟨i, hi, rfl⟩

theorem execLdVxK_next (h : execLdVxK x s = .next t) :
    (∃ k : Key, t = s.withCore (s.writeV x (BitVec.ofNat 8 k.val)).advance) ∨ t = s := by
  rcases execLdVxK_cases x s with ⟨k, -, e⟩ | ⟨-, e⟩ <;> rw [e] at h <;> cases h
  · exact .inl ⟨k, rfl⟩
  · exact .inr rfl

end inversion

section exec
variable {i : Instr} {s t : State}

/-- Each instruction changes only what its line of the access matrix lists, and only `Cxkk` uses an input byte. -/
theorem exec_unchanged (h : exec i s = .next t) :
    coreUnchanged (mayWrite i) s.toCoreState t.toCoreState ∧ t.draws = s.draws + inputsUsed i := by
  cases i with
  | jp | jpV0 | seImm | sneImm | seReg | sneReg | skp | sknp =>
    cases h
    exact ⟨coreUnchanged_setPc _ (List.mem_singleton_self _) _, rfl⟩
  | ldImm | addImm | ldReg | or | and | xor | addReg | sub | shr | subn | shl | rnd | ldVxDt =>
    cases h
    exact ⟨coreUnchanged_setV_advance _ _, rfl⟩
  | ldI | addI | ldF =>
    cases h
    exact ⟨CoreState.coreUnchanged_setI_advance _ _, rfl⟩
  | cls =>
    cases h
    exact ⟨CoreState.coreUnchanged_setFB_setDIRTY_advance _ _ _, rfl⟩
  | ldDtVx =>
    cases h
    exact ⟨CoreState.coreUnchanged_setDT_advance _ _, rfl⟩
  | ldStVx =>
    cases h
    exact ⟨coreUnchanged_setST_advance _ _, rfl⟩
  | ret =>
    obtain ⟨i, -, rfl⟩ := execRet_next h
    exact ⟨coreUnchanged_setSP_setPc _ _ _, rfl⟩
  | call =>
    obtain ⟨-, rfl⟩ := execCall_next h
    exact ⟨coreUnchanged_setStack_setSP_setPc _ _ _ _, rfl⟩
  | drw =>
    obtain ⟨-, rfl⟩ := execDrw_next h
    exact ⟨coreUnchanged_drawSprite _ _ _ _ _, rfl⟩
  | ldVxK =>
    obtain ⟨k, rfl⟩ | rfl := execLdVxK_next h
    · exact ⟨coreUnchanged_setV_advance _ _, rfl⟩
    · exact ⟨coreUnchanged_refl _ _, rfl⟩
  | ldB =>
    obtain ⟨-, rfl⟩ := execLdB_next h
    exact ⟨coreUnchanged_setMem_advance _ _, rfl⟩
  | stRegs =>
    obtain ⟨-, rfl⟩ := execStRegs_next h
    exact ⟨coreUnchanged_setMem_advance _ _, rfl⟩
  | ldRegs =>
    obtain ⟨-, rfl⟩ := execLdRegs_next h
    exact ⟨coreUnchanged_setV_advance _ _, rfl⟩

/-- The frame of an instruction that uses no input. -/
theorem unchanged_of_exec (h : exec i s = .next t) (hi : inputsUsed i = 0) : Unchanged (mayWrite i) s t := by
  obtain ⟨hcore, hdraws⟩ := exec_unchanged h
  exact ⟨hcore, by rw [hdraws, hi, Nat.add_zero]⟩

end exec

/-- Settles O14: instruction by instruction, from the frame of the one update that is its meaning (`exec_unchanged`). -/
theorem instructionsWriteOnlyTheAccessMatrix : Obligations.InstructionsWriteOnlyTheAccessMatrix :=
  fun _ _ _ h => exec_unchanged h

/-! # The default advance (R92) -/

/-- An instruction without a rule of its own for the program counter ends by advancing it. -/
theorem exec_pc_of_default {i : Instr} {s t : State} (h : exec i s = .next t) (hi : ownPc i = false) :
    t.pc = s.pc + 2 := by
  cases i with
  | ret | jp | call | seImm | sneImm | seReg | sneReg | jpV0 | skp | sknp | ldVxK => cases hi
  | drw =>
    obtain ⟨-, rfl⟩ := execDrw_next h
    rfl
  | ldB =>
    obtain ⟨-, rfl⟩ := execLdB_next h
    rfl
  | stRegs =>
    obtain ⟨-, rfl⟩ := execStRegs_next h
    rfl
  | ldRegs =>
    obtain ⟨-, rfl⟩ := execLdRegs_next h
    rfl
  | _ =>
    cases h
    rfl

/-- Settles O13: the advance (`exec_pc_of_default`) as an integer. -/
theorem defaultAdvanceIsTwo : Obligations.DefaultAdvanceIsTwo := by
  intro i s t h hi
  rw [exec_pc_of_default h hi]
  exact BitVec.toNat_add _ _

/-! # Registers: destination and flag (R21, R22) -/

/-- The state an instruction answers that writes `v` to `V[x]`, then the flag `b` to VF, and advances (R123). -/
theorem withCore_writeFlagged_advance_spec (s : State) (x : Reg) (v : Byte) (b : Bool) :
    let t := s.withCore (s.writeFlagged x v (flagByte b)).advance
    (x ≠ VF → t.readV x = v) ∧ t.readV VF = flagByte b ∧ regsKept [x, VF] s t ∧ Unchanged [.pc, .V] s t := by
  refine ⟨fun hx => by simp [hx], by simp, fun r hr => ?_, unchanged_withCore (coreUnchanged_setV_advance _ _)⟩
  obtain ⟨hx, hVF⟩ : r ≠ x ∧ r ≠ VF := by simpa using hr
  simp [hx, hVF]

/-- A register that holds a flag holds 0 or 1 (R22). -/
theorem flag_cases_of_eq {v : Byte} {b : Bool} (h : v = flagByte b) : v = 0 ∨ v = 1 := h ▸ flagByte_cases b

/-- A drawn sprite leaves every register but VF alone. -/
theorem readV_drawSprite (edge : Config.SpriteEdge) (x y : Reg) (sprite : List Byte) (s : CoreState) (r : Reg) :
    (drawSprite edge x y sprite s).readV r = if r = VF then flagByte
      (Drawing.drawRows ⟨s.FB, false⟩ edge (s.readV x).toNat (s.readV y).toNat sprite).collision else s.readV r := by
  simp [drawSprite]

/-- The registers an instruction without `.V` in its line of the access matrix leaves alone: all. -/
theorem regsKept_of_coreUnchanged {l : List Field} {s t : State} (h : coreUnchanged l s.toCoreState t.toCoreState)
    (hl : .V ∉ l) (rs : List Reg) : regsKept rs s t :=
  fun r _ => h .V hl r

/-- The registers from `V[0]` to `V[x]` are the destinations of `Fx65`. -/
theorem mem_destinations_ldRegs {x r : Reg} : r ∈ destinations (.ldRegs x) ↔ r.val ≤ x.val := by
  simp [destinations]

section registers
variable {i : Instr} {s t : State}

/-- An instruction that writes no flag changes only its destinations. -/
theorem exec_regsKept (h : exec i s = .next t) (hi : writesFlag i = false) : regsKept (destinations i) s t := by
  cases i with
  | addReg | sub | shr | subn | shl | drw => cases hi
  | ldImm | addImm | ldReg | or | and | xor | rnd | ldVxDt =>
    cases h
    exact (withCore_writeV_advance_spec s _ _).2.1
  | ldVxK =>
    obtain ⟨k, rfl⟩ | rfl := execLdVxK_next h
    · exact (withCore_writeV_advance_spec s _ _).2.1
    · exact fun _ _ => rfl
  | ldRegs x =>
    obtain ⟨-, rfl⟩ := execLdRegs_next h
    intro r hr
    have hlen : ¬ r.val < x.val + 1 := fun hlt => hr (mem_destinations_ldRegs.2 (by omega))
    simp [CoreState.readV_writeFirstRegs, hlen]
  | _ => exact regsKept_of_coreUnchanged (exec_unchanged h).1 (by simp [mayWrite]) _

/-- An instruction that writes the flag changes only its destination and VF, and leaves 0 or 1 in VF. -/
theorem exec_flag (h : exec i s = .next t) (hi : writesFlag i = true) :
    (∀ r : Reg, r ≠ VF → r ∉ destinations i → t.readV r = s.readV r) ∧ (t.readV VF = 0 ∨ t.readV VF = 1) := by
  cases i with
  | addReg x | sub x | shr x | subn x | shl x =>
    cases h
    obtain ⟨-, hflag, hkept, -⟩ := withCore_writeFlagged_advance_spec s x _ _
    refine ⟨fun r hVF hx => hkept r ?_, ?_⟩
    · simpa [destinations, hVF] using hx
    · exact flag_cases_of_eq hflag
  | drw x y n =>
    obtain ⟨-, rfl⟩ := execDrw_next h
    refine ⟨fun r hVF _ => ?_, ?_⟩
    · exact (readV_drawSprite _ _ _ _ _ r).trans (if_neg hVF)
    · exact flag_cases_of_eq ((readV_drawSprite _ _ _ _ _ VF).trans (if_pos rfl))
  | _ => cases hi

end registers

/-- Settles O15: an instruction that writes no flag changes only its destinations (`exec_regsKept`), one that does changes
VF beside them and leaves 0 or 1 there (`exec_flag`). -/
theorem registersChangeOnlyAsDestinationOrFlag : Obligations.RegistersChangeOnlyAsDestinationOrFlag := by
  intro i s t h
  rcases hi : writesFlag i with _ | _
  · have hkept := exec_regsKept h hi
    exact ⟨fun r _ hr => hkept r hr, fun _ hr => hkept VF hr, nofun⟩
  · obtain ⟨hkept, hflag⟩ := exec_flag h hi
    exact ⟨hkept, nofun, fun _ => hflag⟩

/-! # Faults (R160 to R166) -/

/-- The stack counter is 16 exactly when it is not below 16. -/
theorem CoreState.SP_eq_16_iff (s : CoreState) : s.SP = 16 ↔ ¬ s.SP.val < 16 := by
  rw [Fin.ext_iff, show ((16 : Fin 17) : Nat) = 16 from rfl]
  omega

section faults
variable {s : State} {f : Fault}

theorem execCall_eq_fault {nnn : BitVec 12} : execCall nnn s = .fault f ↔ f = .stackOverflow ∧ s.SP = 16 := by
  rw [execCall_eq, CoreState.SP_eq_16_iff]
  split <;> simp [*, eq_comm]

theorem execRet_eq_fault : execRet s = .fault f ↔ f = .stackUnderflow ∧ s.SP = 0 := by
  rcases execRet_cases s with ⟨i, hi, e⟩ | ⟨h0, e⟩
  · have hne : s.SP ≠ 0 := fun h0 => by simp [h0] at hi
    simp [e, hne]
  · simp [e, h0, eq_comm]

theorem execDrw_eq_fault {x y : Reg} {n : Nat} :
    execDrw x y n s = .fault f ↔ f = .memoryOutOfRange ∧ 0 < n ∧ 0xFFF < s.I.toNat + n - 1 := by
  rw [execDrw_eq, guarded_eq_fault, and_comm, not_or, Nat.not_le, Nat.pos_iff_ne_zero]
  rfl

theorem execLdB_eq_fault {x : Reg} : execLdB x s = .fault f ↔ f = .memoryOutOfRange ∧ 0xFFF < s.I.toNat + 2 := by
  rw [execLdB_eq, guarded_eq_fault, and_comm, Nat.not_le]
  rfl

theorem execStRegs_eq_fault {x : Reg} :
    execStRegs x s = .fault f ↔ f = .memoryOutOfRange ∧ 0xFFF < s.I.toNat + x.val := by
  rw [execStRegs_eq, guarded_eq_fault, and_comm, Nat.not_le]
  rfl

theorem execLdRegs_eq_fault {x : Reg} :
    execLdRegs x s = .fault f ↔ f = .memoryOutOfRange ∧ 0xFFF < s.I.toNat + x.val := by
  rw [execLdRegs_eq, guarded_eq_fault, and_comm, Nat.not_le]
  rfl

theorem execLdVxK_ne_fault {x : Reg} : execLdVxK x s ≠ .fault f := by
  rcases execLdVxK_cases x s with ⟨k, -, e⟩ | ⟨-, e⟩ <;> rw [e] <;> nofun

/-- An instruction answers a next state or faults: none is refused. -/
theorem exec_cases (i : Instr) (s : State) : (∃ t, exec i s = .next t) ∨ ∃ f, exec i s = .fault f := by
  cases i with
  | ret => rcases execRet_cases s with ⟨j, -, e⟩ | ⟨-, e⟩; exacts [.inl ⟨_, e⟩, .inr ⟨_, e⟩]
  | ldVxK x => rcases execLdVxK_cases x s with ⟨k, -, e⟩ | ⟨-, e⟩; exacts [.inl ⟨_, e⟩, .inl ⟨_, e⟩]
  | call | drw | ldB | stRegs | ldRegs =>
    simp only [exec, execCall_eq, execDrw_eq, execLdB_eq, execStRegs_eq, execLdRegs_eq]
    split
    exacts [.inl ⟨_, rfl⟩, .inr ⟨_, rfl⟩]
  | _ => exact .inl ⟨_, rfl⟩

end faults

/-- Settles O11: six instructions have a guard, and each faults exactly when it fails (`execCall_eq_fault` and its
companions); the others never fault. -/
theorem executeFaultsExactly : Obligations.ExecuteFaultsExactly := by
  intro i s f
  cases i with
  | call => exact execCall_eq_fault.trans (by simp)
  | ret => exact execRet_eq_fault.trans (by simp)
  | drw => exact execDrw_eq_fault.trans (by simp)
  | ldB => exact execLdB_eq_fault.trans (by simp)
  | stRegs => exact execStRegs_eq_fault.trans (by simp)
  | ldRegs => exact execLdRegs_eq_fault.trans (by simp)
  | ldVxK => exact iff_of_false execLdVxK_ne_fault (by simp)
  | _ => exact iff_of_false nofun (by simp)

/-- The faults of the fetch and decode phases (R161, R164 (a)). -/
theorem CoreState.nextInstr_error {s : CoreState} {f : Fault} (h : s.nextInstr = .error f) :
    f = .unknownOpcode ∨ f = .memoryOutOfRange := by
  unfold nextInstr at h
  rcases s.fetch_cases with ⟨-, e⟩ | ⟨-, e⟩ <;> rw [e] at h
  · dsimp only at h
    split at h <;> cases h
    exact .inl rfl
  · cases h
    exact .inr rfl

/-- Settles O12: a fault of the fetch or decode phase is one of two (`nextInstr_error`), one of the execute phase one of
three (`executeFaultsExactly`), and no execution is refused (`exec_cases`). -/
theorem stepAnswersStateOrStepFault : Obligations.StepAnswersStateOrStepFault := by
  intro s
  rcases hn : s.nextInstr with f | i
  · refine .inr ⟨f, step_of_nextInstr_error hn, ?_⟩
    rcases CoreState.nextInstr_error hn with rfl | rfl <;> decide
  · rw [step_eq_exec hn]
    refine (exec_cases i s).imp id fun ⟨f, hf⟩ => ⟨f, hf, ?_⟩
    rcases (executeFaultsExactly i s f).1 hf with ⟨rfl, -⟩ | ⟨rfl, -⟩ | ⟨rfl, -⟩ <;> decide

end Sys2Proof.Machine

namespace Sys2Proof.Machine

/-! # The invariant (R25, R26): every operation keeps it -/

section keepsInvariant
variable {i : Instr} {s t : State}

/-- Only `Fx33` and `Fx55` touch memory, and they store bytes that all lie inside it. -/
theorem exec_mem (h : exec i s = .next t) :
    t.mem = s.mem ∨ ∃ bytes, s.base + bytes.length ≤ Config.memSize ∧ t.mem = s.mem.writeBytes s.base bytes := by
  cases i with
  | ldB x =>
    obtain ⟨hr, rfl⟩ := execLdB_next h
    exact .inr ⟨bcdDigits (s.readV x), by simp only [length_bcdDigits, Config.memSize]; omega, rfl⟩
  | stRegs x =>
    obtain ⟨hr, rfl⟩ := execStRegs_next h
    exact .inr ⟨s.firstRegs (x.val + 1), by simp only [CoreState.length_firstRegs, Config.memSize]; omega, rfl⟩
  | ret =>
    obtain ⟨j, -, rfl⟩ := execRet_next h
    exact .inl rfl
  | call =>
    obtain ⟨-, rfl⟩ := execCall_next h
    exact .inl rfl
  | drw =>
    obtain ⟨-, rfl⟩ := execDrw_next h
    exact .inl rfl
  | ldRegs =>
    obtain ⟨-, rfl⟩ := execLdRegs_next h
    exact .inl rfl
  | ldVxK =>
    obtain ⟨k, rfl⟩ | rfl := execLdVxK_next h <;> exact .inl rfl
  | _ =>
    cases h
    exact .inl rfl

/-- Every instruction keeps memory canonical. -/
theorem exec_mem_wf (h : exec i s = .next t) (hs : s.mem.wf) : t.mem.wf := by
  rcases exec_mem h with e | ⟨bytes, hr, e⟩ <;> rw [e]
  · exact hs
  · exact Memory.writeBytes_wf hs (.inr hr)

/-- An advance or a skip from a fetched instruction stays far below the bound. -/
theorem toNat_skipIf_pc_le {s : CoreState} (hpc : s.pc.toNat ≤ 0xFFE) (c : Bool) : (s.skipIf c).pc.toNat ≤ 0x10FE := by
  rw [CoreState.toNat_skipIf_pc]
  split <;> omega

/-- After an instruction that was fetched the program counter is at most 0x10FE, the highest target of `Bnnn`. -/
theorem exec_pc_le (h : exec i s = .next t) (hs : s.Inv) (hpc : s.pc.toNat ≤ 0xFFE) : t.pc.toNat ≤ 0x10FE := by
  rcases hi : ownPc i with _ | _
  · rw [exec_pc_of_default h hi]
    exact toNat_skipIf_pc_le hpc false
  cases i with
  | seImm | sneImm | seReg | sneReg | skp | sknp =>
    cases h
    exact toNat_skipIf_pc_le hpc _
  | jp nnn =>
    cases h
    have hn := nnn.isLt
    exact (toNat_zext16 nnn).trans_le (by omega)
  | jpV0 nnn =>
    cases h
    have hn := nnn.isLt
    have hv := (s.readV 0).isLt
    exact (toNat_offsetTarget nnn (s.readV 0)).trans_le (by omega)
  | call nnn =>
    obtain ⟨-, rfl⟩ := execCall_next h
    have hn := nnn.isLt
    exact (toNat_zext16 nnn).trans_le (by omega)
  | ret =>
    obtain ⟨j, hj, rfl⟩ := execRet_next h
    have hentry := hs.liveEntries j (by omega)
    exact (BitVec.toNat_add _ _).trans_le (by simp only [BitVec.reduceToNat]; omega)
  | ldVxK =>
    obtain ⟨k, rfl⟩ | rfl := execLdVxK_next h
    · exact toNat_skipIf_pc_le hpc false
    · exact hs.counter
  | _ => cases hi

/-- Only a call makes a stack entry live, and it is the address of the call. -/
theorem exec_liveEntries (h : exec i s = .next t) (hs : s.Inv) (hpc : s.pc.toNat ≤ 0xFFE) (j : Fin 16)
    (hj : j.val < t.SP.val) : t.Stack[j].toNat ≤ 0xFFE := by
  cases i with
  | call nnn =>
    obtain ⟨hSP, rfl⟩ := execCall_next h
    have hj' : j.val < s.SP.val + 1 := hj
    show (s.Stack.set s.SP.val s.pc)[j.val].toNat ≤ 0xFFE
    rw [Vector.getElem_set]
    split
    · exact hpc
    · exact hs.liveEntries j (by omega)
  | ret =>
    obtain ⟨k, hk, rfl⟩ := execRet_next h
    have hj' : j.val < k.val := hj
    exact hs.liveEntries j (by omega)
  | _ =>
    have hframe := (exec_unchanged h).1
    rw [hframe .SP (by simp [mayWrite])] at hj
    rw [hframe .Stack (by simp [mayWrite]) j]
    exact hs.liveEntries j hj

/-- Executing an instruction that was fetched keeps the invariant. -/
theorem exec_keeps_inv (h : exec i s = .next t) (hs : s.Inv) (hpc : s.pc.toNat ≤ 0xFFE) : t.Inv where
  memory := exec_mem_wf h hs.memory
  counter := exec_pc_le h hs hpc
  liveEntries := exec_liveEntries h hs hpc

end keepsInvariant

/-- Settles O20: a completed step executed an instruction fetched at or below 0xFFE (`step_next`), and executing it keeps
memory canonical (`exec_mem_wf`) and the two bounds (`exec_pc_le`, `exec_liveEntries`). -/
theorem stepKeepsInvariant : Obligations.StepKeepsInvariant := by
  intro s t hs h
  obtain ⟨hpc, i, -, -, hexec⟩ := step_next h
  exact exec_keeps_inv hexec hs hpc

/-- The reset state has the invariant. -/
theorem CoreState.reset_inv : CoreState.reset.Inv where
  memory := Memory.nil_wf
  counter := by decide
  liveEntries := fun _ h => absurd h (Nat.not_lt_zero _)

/-- Settles O19: memory lists nothing, `pc` is the program base and no entry is live (`reset_inv`). -/
theorem invariantHoldsAtReset : Obligations.InvariantHoldsAtReset := CoreState.reset_inv

/-- The invariant speaks of memory, the program counter and the return stack alone. -/
theorem CoreState.Inv.congr {s t : CoreState} (hs : s.Inv) (hmem : t.mem = s.mem) (hpc : t.pc = s.pc)
    (hStack : t.Stack = s.Stack) (hSP : t.SP = s.SP) : t.Inv where
  memory := hmem ▸ hs.memory
  counter := hpc ▸ hs.counter
  liveEntries := by
    rw [hStack, hSP]
    exact hs.liveEntries

/-- An instruction with a word is fetched from two bytes of memory (R52). -/
theorem CoreState.pc_le_of_nextInstr {s : CoreState} {i : Instr} (h : s.nextInstr = .ok i) : s.pc.toNat ≤ 0xFFE := by
  obtain ⟨op, hop, -⟩ := nextInstr_eq_ok.1 h
  rcases s.fetch_cases with ⟨hpc, -⟩ | ⟨-, e⟩
  · exact hpc
  · rw [e] at hop
    cases hop

/-- `step(rnd)` keeps the invariant, whatever its input. -/
theorem coreStep_keeps_inv {rnd : Byte} {s t : CoreState} (h : coreStep rnd s = .next t) (hs : s.Inv) : t.Inv := by
  obtain ⟨i, hn, ⟨x, kk, -, rfl⟩ | ⟨-, u, hu, rfl⟩⟩ := coreStep_next h
  · have hpc := CoreState.pc_le_of_nextInstr hn
    exact ⟨hs.memory, toNat_skipIf_pc_le hpc false, hs.liveEntries⟩
  · exact exec_keeps_inv hu hs (CoreState.pc_le_of_nextInstr hn)

/-- Settles O21: reset establishes the invariant (`reset_inv`), a load stores an image that fits, a step keeps it
(`coreStep_keeps_inv`), and the other operations touch nothing it speaks of. -/
theorem operationsKeepInvariant : Obligations.OperationsKeepInvariant := by
  intro op s t r hs h
  cases op with
  | reset =>
    cases h
    exact CoreState.reset_inv
  | loadProgram bytes =>
    rcases opLoadProgram_cases bytes s with ⟨hlen, e⟩ | ⟨-, e⟩ <;> simp only [perform, e] at h <;> cases h
    · have hfit : Config.progBase + bytes.length ≤ Config.memSize := by
        simp only [Config.progBase, Config.memSize]
        omega
      exact ⟨Memory.writeBytes_wf hs.memory (.inr hfit), hs.counter, hs.liveEntries⟩
    · exact hs
  | step rnd =>
    rcases opStep_cases rnd s with ⟨u, hu, e⟩ | ⟨f, -, e⟩ | ⟨q, -, e⟩ <;> simp only [perform, e] at h <;> cases h
    · exact coreStep_keeps_inv hu hs
    · exact hs
  | tick | setKey | clearKey | clearDirty =>
    cases h
    exact hs.congr rfl rfl rfl rfl

/-- A schedule from a state with the invariant ends in one. -/
theorem runSchedule_keeps_inv {ops : List Operation} {s t : CoreState} (h : runSchedule ops s = some t) (hs : s.Inv) :
    t.Inv := by
  induction ops generalizing s with
  | nil => exact Option.some.inj h ▸ hs
  | cons op rest ih =>
    rcases hp : perform op s with _ | ⟨u, r⟩ <;> simp only [runSchedule, hp] at h
    · cases h
    · exact ih h (operationsKeepInvariant op s u r hs hp)

/-- Settles O22: the invariant holds after reset and along every schedule (`runSchedule_keeps_inv`). -/
theorem reachableProgramCounterBound : Obligations.ReachableProgramCounterBound := by
  rintro s ⟨ops, hops⟩
  have hs := runSchedule_keeps_inv hops CoreState.reset_inv
  have hpc := hs.counter
  exact ⟨hpc, by omega, hs.liveEntries⟩

/-! # What a program cannot see (R26, R29, R32) -/

/-- A state with another sound timer, dirty flag and return stack. -/
def CoreState.withUnseen (s : CoreState) (st : Byte) (d : Bool) (stack : Vector Word 16) : CoreState :=
  { s with ST := st, DIRTY := d, Stack := stack }

/-- Two states look the same to a program exactly when they differ in the sound timer, the dirty flag and the dead
entries of the return stack. -/
theorem sameToProgram_iff {s t : CoreState} : sameToProgram s t ↔
    ∃ st d stack, t = s.withUnseen st d stack ∧ ∀ i : Fin 16, i.val < s.SP.val → stack[i] = s.Stack[i] := by
  constructor
  · rintro ⟨hmem, hV, hI, hpc, hSP, hDT, hFB, hKEY, hlive⟩
    refine ⟨t.ST, t.DIRTY, t.Stack, ?_, hlive⟩
    rw [CoreState.withUnseen, ← hmem, ← hV, ← hI, ← hpc, ← hSP, ← hDT, ← hFB, ← hKEY]
  · rintro ⟨st, d, stack, rfl, hlive⟩
    exact ⟨rfl, rfl, rfl, rfl, rfl, rfl, rfl, rfl, hlive⟩

/-- Two outcomes that a program cannot tell apart: next states that look the same to it, or the same fault. -/
def sameOutcome (r r' : Result) : Prop :=
  (∃ t t' : State, r = .next t ∧ r' = .next t' ∧ sameToProgram t.toCoreState t'.toCoreState) ∨
    ∃ f, r = .fault f ∧ r' = .fault f

/-- A key wait with no key down does nothing (R153). -/
theorem execLdVxK_of_none {x : Reg} {s : State} (h : s.firstKeyDown = none) : execLdVxK x s = .next s := by
  rw [execLdVxK, h]

/-- A key wait takes the least key down (R153). -/
theorem execLdVxK_of_some {x : Reg} {s : State} {k : Key} (h : s.firstKeyDown = some k) :
    execLdVxK x s = .next (s.withCore (s.writeV x (BitVec.ofNat 8 k.val)).advance) := by
  rw [execLdVxK, h]

section unseen
variable {s : State} {st : Byte} {d : Bool} {stack : Vector Word 16}

/-- Outcomes under one guard are the same when the states are. -/
theorem sameOutcome_guarded {p : Prop} [Decidable p] {t t' : State} {f : Fault}
    (h : sameToProgram t.toCoreState t'.toCoreState) :
    sameOutcome (if p then .next t else .fault f) (if p then .next t' else .fault f) := by
  split
  · exact .inl ⟨t, t', rfl, rfl, h⟩
  · exact .inr ⟨f, rfl, rfl⟩

variable (hlive : ∀ i : Fin 16, i.val < s.SP.val → stack[i] = s.Stack[i])
include hlive

/-- A call makes the entry at `SP` live, the same in both states. -/
theorem sameOutcome_execCall (nnn : BitVec 12) :
    sameOutcome (execCall nnn s) (execCall nnn (s.withCore (s.withUnseen st d stack))) := by
  rw [execCall_eq, execCall_eq]
  show sameOutcome _ (if h : s.SP.val < 16 then _ else _)
  split
  · refine .inl ⟨_, _, rfl, rfl, rfl, rfl, rfl, rfl, rfl, rfl, rfl, rfl, fun i hi => ?_⟩
    have hi' : i.val < s.SP.val + 1 := hi
    show (stack.set s.SP.val s.pc)[i.val] = (s.Stack.set s.SP.val s.pc)[i.val]
    rw [Vector.getElem_set, Vector.getElem_set]
    split
    · rfl
    · exact hlive i (by omega)
  · exact .inr ⟨_, rfl, rfl⟩

/-- A return pops a live entry, the same in both states. -/
theorem sameOutcome_execRet : sameOutcome (execRet s) (execRet (s.withCore (s.withUnseen st d stack))) := by
  rcases execRet_cases s with ⟨i, hi, -⟩ | ⟨h0, -⟩
  · rw [execRet_of_entry s i hi, execRet_of_entry (s.withCore (s.withUnseen st d stack)) i hi]
    refine .inl ⟨_, _, rfl, rfl, rfl, rfl, rfl, congrArg (· + 2) (hlive i (by omega)), rfl, rfl, rfl, rfl,
      fun j hj => ?_⟩
    have hj' : j.val < i.val := hj
    exact hlive j (by omega)
  · rw [execRet_of_empty s h0, execRet_of_empty (s.withCore (s.withUnseen st d stack)) h0]
    exact .inr ⟨_, rfl, rfl⟩

/-- A key wait looks at the keypad, the same in both states. -/
theorem sameOutcome_execLdVxK (x : Reg) :
    sameOutcome (execLdVxK x s) (execLdVxK x (s.withCore (s.withUnseen st d stack))) := by
  rcases hk : s.firstKeyDown with _ | k
  · rw [execLdVxK_of_none hk, execLdVxK_of_none (s := s.withCore (s.withUnseen st d stack)) hk]
    exact .inl ⟨_, _, rfl, rfl, rfl, rfl, rfl, rfl, rfl, rfl, rfl, rfl, hlive⟩
  · rw [execLdVxK_of_some hk, execLdVxK_of_some (s := s.withCore (s.withUnseen st d stack)) hk]
    exact .inl ⟨_, _, rfl, rfl, rfl, rfl, rfl, rfl, rfl, rfl, rfl, rfl, hlive⟩

/-- Executed with the same input, an instruction does the same in two states that look the same to a program: what it
reads is the same field of both. -/
theorem sameOutcome_execWith (rnd : Byte) (i : Instr) :
    sameOutcome (execWith rnd i s) (execWith rnd i (s.withCore (s.withUnseen st d stack))) := by
  cases i with
  | call nnn => exact sameOutcome_execCall hlive nnn
  | ret => exact sameOutcome_execRet hlive
  | ldVxK x => exact sameOutcome_execLdVxK hlive x
  | drw | ldB | stRegs | ldRegs =>
    simp only [execWith, exec, execDrw_eq, execLdB_eq, execStRegs_eq, execLdRegs_eq]
    exact sameOutcome_guarded ⟨rfl, rfl, rfl, rfl, rfl, rfl, rfl, rfl, hlive⟩
  | _ => exact .inl ⟨_, _, rfl, rfl, rfl, rfl, rfl, rfl, rfl, rfl, rfl, rfl, hlive⟩

end unseen

/-- Settles O60: states that look the same to a program have the same next instruction, and executing it with the same
input does the same in both (`sameOutcome_execWith`). -/
theorem programCannotSeeSoundDirtyOrDeadStack : Obligations.ProgramCannotSeeSoundDirtyOrDeadStack := by
  intro rnd s s' h
  obtain ⟨st, d, stack, rfl, hlive⟩ := sameToProgram_iff.1 h
  have hnext : (s.withUnseen st d stack).nextInstr = s.nextInstr := rfl
  unfold coreStep
  rw [hnext]
  rcases s.nextInstr with f | i
  · exact .inr ⟨f, rfl, rfl⟩
  · rcases sameOutcome_execWith (s := ⟨s, 0⟩) (st := st) (d := d) hlive rnd i with ⟨t, t', e, e', ht⟩ | ⟨f, e, e'⟩
    · exact .inl ⟨_, _, congrArg coreOutcome e, congrArg coreOutcome e', ht⟩
    · exact .inr ⟨f, congrArg coreOutcome e, congrArg coreOutcome e'⟩

end Sys2Proof.Machine

namespace Sys2Proof.Machine

/-! # Fetch and step (R52, R90) -/

namespace CoreState

/-- A fetch past the end is a fault of the fetch phase (R164 (a)). -/
theorem nextInstr_of_pc_ge {s : CoreState} (h : 0xFFF ≤ s.pc.toNat) : s.nextInstr = .error .memoryOutOfRange := by
  rcases s.fetch_cases with ⟨h', -⟩ | ⟨-, e⟩
  · omega
  · simp only [nextInstr, e]

/-- In range the next instruction is the one the two bytes at `pc` decode to. -/
theorem nextInstr_of_bytes {s : CoreState} {i : Instr} (hpc : s.pc.toNat ≤ 0xFFE)
    (h : decodeWord (joinBytes (s.mem.read s.pc.toNat) (s.mem.read (s.pc.toNat + 1))) = some i) : s.nextInstr = .ok i :=
  nextInstr_eq_ok.2 ⟨_, fetch_ok hpc, h⟩

/-- The next instruction depends on memory and the program counter alone. -/
theorem nextInstr_congr {s t : CoreState} (hmem : t.mem = s.mem) (hpc : t.pc = s.pc) : t.nextInstr = s.nextInstr := by
  simp only [nextInstr, fetch, memRead16, hmem, hpc]

end CoreState

/-- Settles O7: the fault of the fetch phase (`nextInstr_of_pc_ge`) is the step's. -/
theorem fetchPastTheEndFaults : Obligations.FetchPastTheEndFaults :=
  fun _ h => step_of_nextInstr_error (CoreState.nextInstr_of_pc_ge h)

/-- Settles O9: the two bytes at `pc` give the next instruction (`nextInstr_of_bytes`), whose execution the step is; what a
completed step has done is `step_next`, and the core's step is `step_eq_coreStep`. -/
theorem stepRunsTheDecodedInstruction : Obligations.StepRunsTheDecodedInstruction := by
  refine ⟨fun s i hpc hd => step_eq_exec (CoreState.nextInstr_of_bytes hpc (decode_pair.1 hd)), fun s t h => ?_,
    step_eq_coreStep⟩
  obtain ⟨hpc, i, -, hd, hexec⟩ := step_next h
  exact ⟨hpc, i, decode_pair.2 hd, hexec⟩

/-! # Bytes written and read back (R52) -/

namespace Memory

section writeBytes
variable {m : Memory} (hm : m.wf) {a : Nat} {bytes : List Byte} (hr : a + bytes.length ≤ Config.memSize)
include hm hr

theorem read_writeBytes_inside {k : Nat} (hk : k < bytes.length) : (m.writeBytes a bytes).read (a + k) = bytes[k] := by
  rw [read_writeBytes hm (.inr hr), dif_pos ⟨Nat.le_add_right a k, by omega⟩]
  simp

theorem read_writeBytes_outside {b : Nat} (hb : b < a ∨ a + bytes.length ≤ b) :
    (m.writeBytes a bytes).read b = m.read b := by
  rw [read_writeBytes hm (.inr hr), dif_neg (by omega)]

end writeBytes

end Memory

/-! # Placing a word (log 7) -/

section withFetchWord
variable (s : State) (n w : Nat)

/-- The placed word is decoded as the word it stands for. -/
theorem decodeTableWord_eq : decodeTableWord n w = decodeWord (tableWord n w) := by
  simp only [decodeTableWord, decode, joinBytes_hi_lo]
  rcases decodeWord (tableWord n w) with _ | i <;> rfl

theorem withFetchWord_pc_of_le (h : s.pc.toNat ≤ 0xFFE) : (s.withFetchWord n w).pc = s.pc := by
  have hr : inRange s.pc.toNat 2 := .inr (by simp only [Config.memSize]; omega)
  simp [State.withFetchWord, hr]

theorem withFetchWord_pc_of_ge (h : 0xFFF ≤ s.pc.toNat) : (s.withFetchWord n w).pc = 0x200 := by
  have hr : ¬ inRange s.pc.toNat 2 := by
    simp only [inRange, Config.memSize]
    omega
  simp [State.withFetchWord, hr]

/-- The word is placed where it can be fetched. -/
theorem withFetchWord_pc_le : (s.withFetchWord n w).pc.toNat ≤ 0xFFE := by
  rcases Nat.lt_or_ge 0xFFE s.pc.toNat with h | h
  · rw [withFetchWord_pc_of_ge s n w h]
    decide
  · rwa [withFetchWord_pc_of_le s n w h]

/-- Placing the word writes its two bytes at the program counter. -/
theorem withFetchWord_mem : (s.withFetchWord n w).mem =
    s.mem.writeBytes (s.withFetchWord n w).pc.toNat [hiByte (tableWord n w), loByte (tableWord n w)] := by
  unfold State.withFetchWord
  split <;> rfl

/-- Placing the word touches memory and the program counter alone. -/
theorem withFetchWord_unchanged : Unchanged [.mem, .pc] s (s.withFetchWord n w) := by
  refine unchanged_withCore (coreUnchanged_trans ?_ (coreUnchanged_setMem _ (by decide) _))
  split
  · exact coreUnchanged_refl _ _
  · exact coreUnchanged_setPc _ (by decide) _

/-- The placed word is the next instruction. -/
theorem withFetchWord_nextInstr {i : Instr} (hs : s.mem.wf) (h : decodeTableWord n w = some i) :
    (s.withFetchWord n w).nextInstr = .ok i := by
  have hpc := withFetchWord_pc_le s n w
  have hr : (s.withFetchWord n w).pc.toNat + [hiByte (tableWord n w), loByte (tableWord n w)].length
      ≤ Config.memSize := by
    simp only [List.length_cons, List.length_nil, Config.memSize]
    omega
  have hhi := Memory.read_writeBytes_inside hs hr (k := 0) (by simp)
  have hlo := Memory.read_writeBytes_inside hs hr (k := 1) (by simp)
  rw [← withFetchWord_mem] at hhi hlo
  refine CoreState.nextInstr_of_bytes hpc ?_
  rw [Nat.add_zero] at hhi
  rw [hhi, hlo, ← h, decodeTableWord_eq]
  exact congrArg decodeWord (joinBytes_hi_lo _)

end withFetchWord

/-- Settles O10: the placed word is the next instruction (`withFetchWord_nextInstr`), and placing it writes two bytes at the
program counter (`withFetchWord_mem`), which moves only where no word could be fetched. -/
theorem placedWordRunsNext : Obligations.PlacedWordRunsNext := by
  intro s w i hs h
  refine ⟨step_eq_exec (withFetchWord_nextInstr s 16 w hs h), withFetchWord_unchanged s 16 w, fun b hb => ?_,
    withFetchWord_pc_of_le s 16 w, withFetchWord_pc_of_ge s 16 w⟩
  have hpc := withFetchWord_pc_le s 16 w
  rw [withFetchWord_mem]
  refine Memory.read_writeBytes_outside hs ?_ hb
  simp only [List.length_cons, List.length_nil, Config.memSize]
  omega

/-! # Outputs of a step, and what it never touches (R93) -/

/-- `fb_changed` belongs to `00E0` and `Dxyn`. -/
theorem changesFrame_iff {i : Instr} : changesFrame i = true ↔ i = .cls ∨ ∃ x y n, i = .drw x y n := by
  cases i <;> simp [changesFrame]

/-- `fb_changed` of a step that has an instruction to execute. -/
theorem frameStep_iff {s : CoreState} :
    frameStep s = true ↔ s.nextInstr = .ok .cls ∨ ∃ x y n, s.nextInstr = .ok (.drw x y n) := by
  rcases hn : s.nextInstr with f | i
  · simp [frameStep, hn]
  · simp [frameStep_of_nextInstr hn, changesFrame_iff]

/-- Settles O16: what a completed step returns is `opStep_of_next`, with `fb_changed` by `frameStep_iff`; a fault returns the
state before it. -/
theorem stepOutputs : Obligations.StepOutputs := by
  refine ⟨fun rnd s t h => ⟨_, opStep_of_next h, rfl, rfl, rfl, frameStep_iff⟩, fun rnd s f h => ?_, rfl⟩
  simp only [opStep, h]

section untouched
variable {i : Instr} {s t : State}

/-- `DIRTY` after an instruction: set by `00E0` and `Dxyn`, kept by the others (R32). -/
theorem exec_DIRTY (h : exec i s = .next t) : t.DIRTY = (s.DIRTY || changesFrame i) := by
  cases i with
  | cls =>
    cases h
    exact (Bool.or_true _).symm
  | drw =>
    obtain ⟨-, rfl⟩ := execDrw_next h
    exact (Bool.or_true _).symm
  | _ => exact ((exec_unchanged h).1 .DIRTY (by simp [mayWrite])).trans (Bool.or_false _).symm

/-- Only `Fx15` writes the delay timer (R28). -/
theorem exec_DT (h : exec i s = .next t) : t.DT = s.DT ∨ ∃ x, i = .ldDtVx x ∧ t.DT = s.readV x := by
  cases i with
  | ldDtVx x =>
    cases h
    exact .inr ⟨x, rfl, rfl⟩
  | _ => exact .inl ((exec_unchanged h).1 .DT (by simp [mayWrite]))

/-- Only `Fx18` writes the sound timer (R29). -/
theorem exec_ST (h : exec i s = .next t) : t.ST = s.ST ∨ ∃ x, i = .ldStVx x ∧ t.ST = s.readV x := by
  cases i with
  | ldStVx x =>
    cases h
    exact .inr ⟨x, rfl, rfl⟩
  | _ => exact .inl ((exec_unchanged h).1 .ST (by simp [mayWrite]))

/-- No instruction writes the keypad latch (R31). -/
theorem exec_keyDown (h : exec i s = .next t) (k : Key) : t.keyDown k = s.keyDown k :=
  (exec_unchanged h).1 .KEY (by cases i <;> simp [mayWrite]) k

end untouched

/-- Settles O47: from the instruction the step executed (`exec_DIRTY`). -/
theorem dirtyFlagIsSticky : Obligations.DirtyFlagIsSticky := by
  intro s t h
  obtain ⟨-, i, hn, -, hexec⟩ := step_next h
  rw [exec_DIRTY hexec, Bool.or_eq_true, changesFrame_iff, hn]
  simp

/-- Settles O52: from the instruction the step executed (`exec_DT`, `exec_ST`, `exec_keyDown`). -/
theorem stepNeverCountsTimersOrMovesKeys : Obligations.StepNeverCountsTimersOrMovesKeys := by
  intro s t h
  obtain ⟨-, i, hn, -, hexec⟩ := step_next h
  refine ⟨(exec_DT hexec).imp_right ?_, (exec_ST hexec).imp_right ?_, exec_keyDown hexec⟩
  all_goals
    rintro ⟨x, rfl, e⟩
    exact ⟨x, hn, e⟩

/-! # Steps among the operations of the other actors -/

/-- An execution with a given input faults as the execution does. -/
theorem execWith_eq_fault {rnd : Byte} {i : Instr} {s : State} {f : Fault} :
    execWith rnd i s = .fault f ↔ exec i s = .fault f := by
  rcases execWith_cases rnd i s with ⟨x, kk, rfl, e⟩ | ⟨-, e⟩ <;> rw [e]
  exact iff_of_false nofun nofun

/-- When a step of the core faults: in its fetch or decode phase, or in its execute phase. -/
theorem coreStep_eq_fault {rnd : Byte} {c : CoreState} {f : Fault} : coreStep rnd c = .fault f ↔
    c.nextInstr = .error f ∨ ∃ i, c.nextInstr = .ok i ∧ exec i ⟨c, 0⟩ = .fault f := by
  unfold coreStep
  rcases c.nextInstr with g | i
  · simp
  · simp only [reduceCtorEq, false_or, Except.ok.injEq, exists_eq_left', ← execWith_eq_fault (rnd := rnd)]
    rcases execWith rnd i ⟨c, 0⟩ with t | g | r <;> simp [coreOutcome]

/-- The fault of an execution depends on the stack counter and the index register alone. -/
theorem exec_fault_congr {i : Instr} {s t : State} {f : Fault} (hSP : t.SP = s.SP) (hI : t.I = s.I)
    (h : exec i s = .fault f) : exec i t = .fault f := by
  rw [executeFaultsExactly i t f, hSP, hI]
  exact (executeFaultsExactly i s f).1 h

/-- A step of the core faults alike, whatever its input, in every state with the same memory, program counter, stack
counter and index register. -/
theorem coreStep_fault_congr {rnd rnd' : Byte} {c d : CoreState} {f : Fault} (hmem : d.mem = c.mem) (hpc : d.pc = c.pc)
    (hSP : d.SP = c.SP) (hI : d.I = c.I) (h : coreStep rnd c = .fault f) : coreStep rnd' d = .fault f := by
  rw [coreStep_eq_fault, CoreState.nextInstr_congr hmem hpc]
  exact (coreStep_eq_fault.1 h).imp_right fun ⟨i, hi, hf⟩ => ⟨i, hi, exec_fault_congr hSP hI hf⟩

/-- Settles O58: none of these operations changes what decides a fault (`coreStep_fault_congr`); a step that faults changes
nothing at all. -/
theorem stepFaultRepeats : Obligations.StepFaultRepeats := by
  rintro op s t r f rnd rnd' h hp (⟨b, rfl⟩ | rfl | rfl | ⟨k, rfl⟩ | ⟨k, rfl⟩)
  · have hb : coreStep b s = .fault f := coreStep_fault_congr rfl rfl rfl rfl h
    simp only [perform, opStep, hb] at hp
    cases hp
    exact coreStep_fault_congr rfl rfl rfl rfl h
  all_goals
    cases hp
    exact coreStep_fault_congr (c := s) rfl rfl rfl rfl h

/-- A step of the core changes the delay timer only by `Fx15`. -/
theorem coreStep_DT {rnd : Byte} {c d : CoreState} (h : coreStep rnd c = .next d)
    (hno : ∀ x, c.nextInstr ≠ .ok (.ldDtVx x)) : d.DT = c.DT := by
  obtain ⟨i, hn, ⟨x, kk, -, rfl⟩ | ⟨-, t, ht, rfl⟩⟩ := coreStep_next h
  · rfl
  · rcases exec_DT ht with e | ⟨x, rfl, -⟩
    · exact e
    · exact absurd hn (hno x)

/-- One operation that is no reset and no step of `Fx15` counts the delay timer down once if it is a tick. -/
theorem perform_DT {op : Operation} {c d : CoreState} {r : Report} (h : perform op c = some (d, r)) (hreset : op ≠ .reset)
    (hno : ∀ rnd x, op = .step rnd → c.nextInstr ≠ .ok (.ldDtVx x)) :
    d.DT.toNat = c.DT.toNat - if op = .tick then 1 else 0 := by
  cases op with
  | reset => exact absurd rfl hreset
  | tick =>
    cases h
    exact toNat_countDown c.DT
  | step rnd =>
    rcases opStep_cases rnd c with ⟨u, hu, e⟩ | ⟨f, -, e⟩ | ⟨q, -, e⟩ <;> simp only [perform, e] at h <;> cases h
    · rw [coreStep_DT hu fun x => hno rnd x rfl]
      rfl
    · rfl
  | loadProgram bytes =>
    rcases opLoadProgram_cases bytes c with ⟨-, e⟩ | ⟨-, e⟩ <;> simp only [perform, e] at h <;> cases h <;> rfl
  | setKey | clearKey | clearDirty =>
    cases h
    rfl

/-- Along a schedule without other writes the delay timer counts the ticks, down to 0. -/
theorem runSchedule_DT {ops : List Operation} {c d : CoreState} (hno : noDelayWrite ops c)
    (h : runSchedule ops c = some d) : d.DT.toNat = c.DT.toNat - ops.count .tick := by
  induction ops generalizing c with
  | nil => exact Option.some.inj h ▸ rfl
  | cons op rest ih =>
    obtain ⟨hreset, hstep, hrest⟩ := hno
    rcases hp : perform op c with _ | ⟨e, r⟩ <;> simp only [runSchedule, hp] at h
    · cases h
    · rw [ih (hrest e r hp) h, perform_DT hp hreset hstep, List.count_cons, Nat.sub_sub, Nat.add_comm]
      simp only [beq_iff_eq]

/-- Settles O54: `Fx15` sets the delay timer to `V[x]`, the schedule counts its ticks (`runSchedule_DT`), and `Fx07` reads
what is left. -/
theorem delayReadsLastWriteMinusTicks : Obligations.DelayReadsLastWriteMinusTicks := by
  intro x y ops s t u h hno hrun
  cases h
  obtain ⟨hread, -⟩ := withCore_writeV_advance_spec ((s.withCore (s.setDT (s.readV x)).advance).withCore u) y u.DT
  exact ⟨_, rfl, (congrArg BitVec.toNat hread).trans (runSchedule_DT hno hrun)⟩

/-! # The end of a run (R202) -/

/-- `nnn` as a number is the word modulo 4096 (R71). -/
theorem toNat_fieldNNN (op : Word) : (fieldNNN op).toNat = op.toNat % 4096 := by
  simp [fieldNNN, BitVec.extractLsb'_toNat]

/-- A word of family 1 decodes to a jump. -/
theorem decodeWord_of_family1 {op : Word} (h : op.toNat / 4096 = 1) : decodeWord op = some (.jp (fieldNNN op)) := by
  have hf : fieldFamily op = 0x1#4 := (fieldFamily_eq_iff op _).2 h
  simp only [decodeWord, hf]

/-- At a self-jump the next instruction is a jump to `pc`. -/
theorem atSelfJump_nextInstr {s : State} (h : atSelfJump s) :
    ∃ nnn : BitVec 12, s.nextInstr = .ok (.jp nnn) ∧ zext16 nnn = s.pc := by
  obtain ⟨hpc, hword⟩ := h
  rw [← toNat_joinBytes] at hword
  refine ⟨_, CoreState.nextInstr_of_bytes hpc (decodeWord_of_family1 (by omega)), BitVec.eq_of_toNat_eq ?_⟩
  rw [toNat_zext16, toNat_fieldNNN]
  omega

/-- Jumping to `pc` changes nothing. -/
theorem exec_jp_self {nnn : BitVec 12} {s : State} (h : zext16 nnn = s.pc) : exec (.jp nnn) s = .next s := by
  show Host.Outcome.next (s.withCore (s.setPc (zext16 nnn))) = _
  rw [h]
  rfl

/-- A run of steps from a state that steps to itself ends in that state. -/
theorem run_of_step_self {s : State} (h : step s = .next s) (n : Nat) : Host.Core.run core n s = .next s := by
  induction n with
  | zero => rfl
  | succ n ih => exact (run_succ_next (M := core) h).trans ih

/-- Settles O59: the next instruction jumps to `pc` itself (`atSelfJump_nextInstr`), which changes nothing, and so does every
step of a run (`run_of_step_self`). -/
theorem selfJumpIsForEver : Obligations.SelfJumpIsForEver := by
  intro n s hs
  obtain ⟨nnn, hn, hself⟩ := atSelfJump_nextInstr hs
  have hexec := exec_jp_self hself
  have hstep : step s = .next s := (step_eq_exec hn).trans hexec
  have hrun := run_of_step_self hstep n
  refine ⟨hstep, fun rnd => ?_, hrun, s, hrun⟩
  rw [coreStep_eq_exec hn rfl rnd, hexec, coreOutcome]

/-! # Reset, timers, keys, display view and program load -/

/-- Settles O18: `reset` answers one state, whatever the state before (`opReset_eq_reset`). -/
theorem resetForgetsTheStateBefore : Obligations.ResetForgetsTheStateBefore := by
  intro s u
  simp only [opReset_eq_reset, and_self]

/-- Settles O53: each timer is counted down by a truncated subtraction (`toNat_countDown`). -/
theorem tickCountsBothTimersDown : Obligations.TickCountsBothTimersDown := by
  intro s
  have hcount : ∀ v : Byte, (countDown v).toNat = if 0 < v.toNat then v.toNat - 1 else 0 := by
    intro v
    rw [toNat_countDown]
    split <;> omega
  exact ⟨hcount s.DT, hcount s.ST,
    coreUnchanged_trans (coreUnchanged_setDT s (by decide) _) (coreUnchanged_setST _ (by decide) _)⟩

/-- A key reads what was set, another key as before. -/
theorem keyDown_setKEY_set (s : CoreState) (k : Key) (b : Bool) (j : Key) :
    (s.setKEY (s.KEY.set k b)).keyDown j = if j = k then b else s.keyDown j := by
  simp only [CoreState.keyDown, CoreState.setKEY_KEY, Fin.getElem_fin, Vector.getElem_set, Fin.ext_iff, eq_comm]

/-- Settles O55: both operations set one entry of the keypad latch (`keyDown_setKEY_set`) and nothing else. -/
theorem setAndClearKey : Obligations.SetAndClearKey := by
  intro k s
  have hframe : ∀ v, coreUnchanged [.KEY] s (s.setKEY v) := coreUnchanged_setKEY s (List.mem_singleton_self _)
  exact ⟨keyDown_setKEY_set s k true, hframe _, keyDown_setKEY_set s k false, hframe _⟩

/-- The framebuffer view is the framebuffer's rows one after another. -/
theorem fbView_eq_flatten (s : CoreState) : fbView s = s.FB.flatten.toList := by
  rw [Vector.flatten, Vector.toList_mk, Array.toList_flatten, Array.toList_map, List.map_map]
  rfl

/-- Settles O56: the view is the flattened framebuffer (`fbView_eq_flatten`), whose entry at `y * 64 + x` is column `x` of
row `y`. -/
theorem displaySinkInterface : Obligations.DisplaySinkInterface := by
  intro s
  refine ⟨rfl, coreUnchanged_setDIRTY s (List.mem_singleton_self _) false, ?_, fun px py => ?_⟩
  · rw [fbView_eq_flatten, Vector.length_toList]
  · have hpx := px.isLt
    have hpy := py.isLt
    have hrow : (py.val * 64 + px.val) / 64 = py.val := by omega
    have hcol : (py.val * 64 + px.val) % 64 = px.val := by omega
    rw [fbView_eq_flatten, Vector.getElem?_toList, Vector.getElem?_eq_getElem (by omega), Vector.getElem_flatten]
    simp only [hrow, hcol]
    rfl

/-- Settles O57: an image that fits is stored at 0x200, where each byte reads back (`read_writeBytes_inside`) and no other
byte changes (`read_writeBytes_outside`); a longer one is rejected (`opLoadProgram_cases`). -/
theorem loadProgramCopiesOrRejects : Obligations.LoadProgramCopiesOrRejects := by
  intro bytes s hs
  rcases opLoadProgram_cases bytes s with ⟨hlen, e⟩ | ⟨hlen, e⟩
  · have hr : Config.progBase + bytes.length ≤ Config.memSize := by
      simp only [Config.progBase, Config.memSize]
      omega
    have hp : perform (.loadProgram bytes) s = some (quietReport (s.setMem (s.mem.writeBytes Config.progBase bytes))) := by
      simp only [perform, e]
    refine ⟨fun _ => ⟨_, _, hp, rfl, fun k hk => Memory.read_writeBytes_inside hs hr hk,
      fun b hb => Memory.read_writeBytes_outside hs hr hb, coreUnchanged_setMem s (List.mem_singleton_self _) _⟩,
      fun h => by omega⟩
  · have hp : perform (.loadProgram bytes) s = some (s, ⟨.fault .programTooLarge, false, s.ST⟩) := by
      simp only [perform, e]
    exact ⟨fun h => by omega, fun _ => ⟨_, hp, rfl⟩⟩

end Sys2Proof.Machine

namespace Sys2Proof.Machine

/-! # Control flow: jumps, calls and returns (R94 to R102) -/

/-- Settles O23: the target is the zero-extended `nnn`. -/
theorem jumpSetsProgramCounter : Obligations.JumpSetsProgramCounter :=
  fun nnn _ => ⟨_, rfl, toNat_zext16 nnn, unchanged_of_exec (i := .jp nnn) rfl rfl⟩

/-- Settles O24: the sum of `nnn` and `V[0]` never wraps (`toNat_offsetTarget`). -/
theorem jumpWithOffsetAddsVZero : Obligations.JumpWithOffsetAddsVZero :=
  fun nnn s => ⟨_, rfl, toNat_offsetTarget nnn (s.readV 0), unchanged_of_exec (i := .jpV0 nnn) rfl rfl⟩

/-- A call with room on the return stack. -/
theorem exec_call_of_lt {s : State} (nnn : BitVec 12) (h : s.SP.val < 16) : exec (.call nnn) s =
    .next (s.withCore (((s.setStack (s.Stack.set s.SP.val s.pc)).setSP ⟨s.SP.val + 1, by omega⟩).setPc (zext16 nnn))) :=
  (execCall_eq nnn s).trans (dif_pos h)

/-- Settles O25: with room the call writes the entry at `SP` (`exec_call_of_lt`), without room it faults
(`execCall_eq_fault`). -/
theorem callPushesItsOwnAddress : Obligations.CallPushesItsOwnAddress := by
  intro nnn s
  refine ⟨fun h => ?_, fun h => execCall_eq_fault.2 ⟨rfl, h⟩⟩
  have hexec := exec_call_of_lt nnn h
  refine ⟨_, hexec, toNat_zext16 nnn, rfl, fun i => ?_, ?_⟩
  · refine (Vector.getElem_set h i.isLt).trans ?_
    simp only [eq_comm, Fin.getElem_fin]
  · have hsub : mayWrite (.call nnn) ⊆ [.pc, .SP, .Stack] := by simp [mayWrite]
    exact unchanged_mono (unchanged_of_exec hexec rfl) hsub

/-- Settles O26: a live entry is popped (`execRet_of_entry`), and with none the return faults (`execRet_of_empty`). -/
theorem returnPopsAndAddsTwo : Obligations.ReturnPopsAndAddsTwo := by
  refine fun s => ⟨fun i hi => ?_, execRet_of_empty s⟩
  have hexec : exec .ret s = _ := execRet_of_entry s i hi
  exact ⟨_, hexec, BitVec.toNat_add _ _, rfl, unchanged_of_exec hexec rfl⟩

/-- A frame with one more item shown to agree. -/
theorem coreUnchanged_of_agree {f : Field} {l : List Field} {s t : CoreState} (h : coreUnchanged (f :: l) s t)
    (hf : agreeOn s t f) : coreUnchanged l s t := by
  intro g hg
  by_cases hgf : g = f
  · exact hgf ▸ hf
  · exact h g (by simp [hgf, hg])

/-- Settles O27: the call saves its own address at `SP` (`exec_call_of_lt`), the bytes 00 EE at its target are a return, and
that return pops the address. -/
theorem callThenReturnComesBack : Obligations.CallThenReturnComesBack := by
  intro s nnn hn hSP hnnn hhi hlo
  have hcall := exec_call_of_lt nnn hSP
  set t := s.withCore (((s.setStack (s.Stack.set s.SP.val s.pc)).setSP ⟨s.SP.val + 1, by omega⟩).setPc (zext16 nnn))
  have hpc : t.pc.toNat = nnn.toNat := toNat_zext16 nnn
  have hbytes : decodeWord (joinBytes (t.mem.read t.pc.toNat) (t.mem.read (t.pc.toNat + 1))) = some .ret := by
    rw [hpc, show t.mem = s.mem from rfl, hhi, hlo]
    decide
  have hnext : t.nextInstr = .ok .ret := CoreState.nextInstr_of_bytes (by omega) hbytes
  have hret : exec .ret t = _ := execRet_of_entry t ⟨s.SP.val, hSP⟩ rfl
  have hsaved : t.Stack[(⟨s.SP.val, hSP⟩ : Fin 16)] = s.pc := Vector.getElem_set_self hSP
  have hframe : coreUnchanged [.SP, .pc, .Stack] s.toCoreState _ :=
    coreUnchanged_trans (coreUnchanged_mono (exec_unchanged hcall).1 (by simp [mayWrite]))
      (coreUnchanged_mono (exec_unchanged hret).1 (by simp [mayWrite]))
  refine ⟨t, _, (step_eq_exec hn).trans hcall, (step_eq_exec hnext).trans hret, ?_, fun i hi => ?_,
    coreUnchanged_of_agree hframe rfl, rfl⟩
  · show (t.Stack[(⟨s.SP.val, hSP⟩ : Fin 16)] + 2).toNat = _
    rw [hsaved, BitVec.toNat_add]
    rfl
  · exact Vector.getElem_set_ne hSP i.isLt (Ne.symm hi)

/-- Settles O29: both forms are a skip (`withCore_skipIf_spec`); the condition of `5xy0` is the equality of the two
registers, that of `9xy0` its negation. -/
theorem registerSkips : Obligations.RegisterSkips := by
  intro x y lo s
  have heq : (s.readV x == s.readV y) = true ↔ (s.readV x).toNat = (s.readV y).toNat := by
    rw [beq_iff_eq, BitVec.toNat_inj]
  have hne : (s.readV x != s.readV y) = true ↔ ¬ (s.readV x).toNat = (s.readV y).toNat := by
    rw [bne_iff_ne, ne_eq, BitVec.toNat_inj]
  refine ⟨⟨_, rfl, withCore_skipIf_spec s heq⟩, _, rfl, ?_⟩
  rw [← ite_not]
  exact withCore_skipIf_spec s hne

/-! # Register ALU (R113 to R123) -/

/-- Settles O31: each form is one register write (`withCore_writeV_advance_spec`) of a bitwise operation. -/
theorem logicOperationsBitByBit : Obligations.LogicOperationsBitByBit := by
  intro x y s
  have spec := withCore_writeV_advance_spec s x
  refine ⟨⟨_, rfl, fun k _ => ?_, (spec _).2⟩, ⟨_, rfl, fun k _ => ?_, (spec _).2⟩, _, rfl, fun k _ => ?_, (spec _).2⟩
  · rw [(spec _).1, BitVec.getLsbD_or]
  · rw [(spec _).1, BitVec.getLsbD_and]
  · rw [(spec _).1, BitVec.getLsbD_xor]

/-- Settles O32: `8xy4` writes the sum, then the carry (`withCore_writeFlagged_advance_spec`, `toNat_flagByte_carryOut`). -/
theorem addWithCarryOut : Obligations.AddWithCarryOut := by
  intro x y s
  obtain ⟨hx, hVF, hframe⟩ := withCore_writeFlagged_advance_spec s x (s.readV x + s.readV y)
    (carryOut (s.readV x) (s.readV y))
  refine ⟨_, rfl, fun hne => ?_, ?_, hframe⟩
  · exact (congrArg BitVec.toNat (hx hne)).trans (BitVec.toNat_add _ _)
  · exact (congrArg BitVec.toNat hVF).trans (toNat_flagByte_carryOut _ _)

/-- A difference of bytes, wrapping at 256. -/
theorem toNat_sub_byte (a b : Byte) : (a - b).toNat = (a.toNat + 256 - b.toNat) % 256 := by
  have := b.isLt
  rw [BitVec.toNat_sub]
  omega

/-- The not-borrow is 1 exactly when the subtrahend is at most the minuend (R117). -/
theorem toNat_flagByte_notBorrow (a b : Byte) :
    (flagByte (notBorrow a b)).toNat = if b.toNat ≤ a.toNat then 1 else 0 := by
  by_cases h : b.toNat ≤ a.toNat <;> simp [notBorrow, h]

/-- What a subtraction that writes `a - b` to `V[x]` and the not-borrow to VF leaves (R117, R119). -/
theorem withCore_subtract_spec (s : State) (x : Reg) (a b : Byte) :
    let t := s.withCore (s.writeFlagged x (a - b) (flagByte (notBorrow a b))).advance
    (x ≠ VF → (t.readV x).toNat = (a.toNat + 256 - b.toNat) % 256) ∧
      (t.readV VF).toNat = (if b.toNat ≤ a.toNat then 1 else 0) ∧ regsKept [x, VF] s t ∧ Unchanged [.pc, .V] s t := by
  obtain ⟨hx, hVF, hframe⟩ := withCore_writeFlagged_advance_spec s x (a - b) (notBorrow a b)
  refine ⟨fun hne => ?_, ?_, hframe⟩
  · exact (congrArg BitVec.toNat (hx hne)).trans (toNat_sub_byte a b)
  · exact (congrArg BitVec.toNat hVF).trans (toNat_flagByte_notBorrow a b)

/-- Settles O33: `8xy5` and `8xy7` are one subtraction (`withCore_subtract_spec`) with the operands exchanged. -/
theorem subtractWithNotBorrowOut : Obligations.SubtractWithNotBorrowOut :=
  fun x y s => ⟨⟨_, rfl, withCore_subtract_spec s x (s.readV x) (s.readV y)⟩,
    _, rfl, withCore_subtract_spec s x (s.readV y) (s.readV x)⟩

/-- The operand of the shifts is the value of the register `SHIFT_SRC` names. -/
theorem shiftOperand_eq_of_src {src : Config.ShiftSrc} {vx vy v : Byte} (hx : src = .vx → v = vx)
    (hy : src = .vy → v = vy) : shiftOperand src vx vy = v := by
  rw [shiftOperand_eq]
  cases src
  · exact (hx rfl).symm
  · exact (hy rfl).symm

/-- A flag made of bit `k` of a byte is that bit as a number. -/
theorem toNat_flagByte_getLsbD (v : Byte) (k : Nat) : (flagByte (v.getLsbD k)).toNat = v.toNat / 2 ^ k % 2 := by
  rw [BitVec.getLsbD, Nat.testBit_eq_decide_div_mod_eq]
  rcases Nat.mod_two_eq_zero_or_one (v.toNat / 2 ^ k) with h | h <;> simp [h]

/-- The bit a right shift drops is the remainder by 2 (R118). -/
theorem toNat_flagByte_droppedRight (v : Byte) : (flagByte (droppedRight v)).toNat = v.toNat % 2 :=
  (toNat_flagByte_getLsbD v 0).trans (by rw [Nat.pow_zero, Nat.div_one])

/-- The bit a left shift drops is the quotient by 128 (R120). -/
theorem toNat_flagByte_droppedLeft (v : Byte) : (flagByte (droppedLeft v)).toNat = v.toNat / 128 := by
  have hv := v.isLt
  exact (toNat_flagByte_getLsbD v 7).trans (Nat.mod_eq_of_lt (by omega))

/-- Settles O34: both shifts write the shifted operand (`shiftOperand_eq_of_src`), then the dropped bit. -/
theorem shiftsByOne : Obligations.ShiftsByOne := by
  intro x y s v hvx hvy
  have hv : shiftOperand Config.shiftSrc (s.readV x) (s.readV y) = v := shiftOperand_eq_of_src hvx hvy
  have hshr : exec (.shr x y) s =
      .next (s.withCore (s.writeFlagged x (v >>> 1) (flagByte (droppedRight v))).advance) := by
    simp only [exec, execShr, shiftRight, hv]
  have hshl : exec (.shl x y) s =
      .next (s.withCore (s.writeFlagged x (v <<< 1) (flagByte (droppedLeft v))).advance) := by
    simp only [exec, execShl, shiftLeft, hv]
  obtain ⟨hx, hVF, hframe⟩ := withCore_writeFlagged_advance_spec s x (v >>> 1) (droppedRight v)
  obtain ⟨hx', hVF', hframe'⟩ := withCore_writeFlagged_advance_spec s x (v <<< 1) (droppedLeft v)
  refine ⟨⟨_, hshr, fun hne => ?_, ?_, hframe⟩, _, hshl, fun hne => ?_, ?_, hframe'⟩
  · exact (congrArg BitVec.toNat (hx hne)).trans ((BitVec.toNat_ushiftRight _ _).trans (Nat.shiftRight_eq_div_pow _ _))
  · exact (congrArg BitVec.toNat hVF).trans (toNat_flagByte_droppedRight v)
  · exact (congrArg BitVec.toNat (hx' hne)).trans (BitVec.toNat_shiftLeft.trans (by rw [Nat.shiftLeft_eq]))
  · exact (congrArg BitVec.toNat hVF').trans (toNat_flagByte_droppedLeft v)

/-- The state `Cxkk` answers for the input `b` (R121). -/
theorem withCore_randomMasked_spec (s : State) (b : Byte) (x : Reg) (kk : Byte) :
    let t := s.withCore (randomMasked b x kk s.toCoreState)
    (∀ k < 8, (t.readV x).getLsbD k = (kk.getLsbD k && b.getLsbD k)) ∧ regsKept [x] s t ∧ Unchanged [.pc, .V] s t := by
  obtain ⟨hx, hframe⟩ := withCore_writeV_advance_spec s x (b &&& kk)
  refine ⟨fun k _ => ?_, hframe⟩
  refine (congrArg (·.getLsbD k) hx).trans ?_
  rw [BitVec.getLsbD_and, Bool.and_comm]

/-- Settles O35: `Cxkk` writes the masked input, its own or a given one (`withCore_randomMasked_spec`); every other
instruction executes alike with a given input (`execWith_cases`). -/
theorem randomByteUnderMask : Obligations.RandomByteUnderMask := by
  intro x kk s
  obtain ⟨hbits, hkept, hframe, -⟩ := withCore_randomMasked_spec s s.input x kk
  refine ⟨⟨_, rfl, rfl, hbits, hkept, hframe⟩, fun b => ⟨_, rfl, withCore_randomMasked_spec s b x kk⟩,
    fun b i hi => ?_⟩
  rcases execWith_cases b i s with ⟨x, kk, rfl, -⟩ | ⟨-, e⟩
  · cases hi
  · exact e

/-! # Index register and memory (R131 to R136) -/

/-- Settles O37: `Fx1E` adds at 16 bits (`toNat_indexSum`), `Fx29` multiplies by 5 without overflow
(`toNat_glyphAddress`). -/
theorem addToIndexAndGlyphAddress : Obligations.AddToIndexAndGlyphAddress :=
  fun x s => ⟨⟨_, rfl, toNat_indexSum s.I (s.readV x), unchanged_of_exec (i := .addI x) rfl rfl⟩,
    _, rfl, toNat_glyphAddress (s.readV x), unchanged_of_exec (i := .ldF x) rfl rfl⟩

section stores
variable {s : State} {x : Reg}

theorem exec_ldB_of_le (h : s.base + 2 ≤ 0xFFF) : exec (.ldB x) s =
    .next (s.withCore (s.setMem (s.mem.writeBytes s.base (bcdDigits (s.readV x)))).advance) :=
  (execLdB_eq x s).trans (if_pos h)

theorem exec_stRegs_of_le (h : s.base + x.val ≤ 0xFFF) : exec (.stRegs x) s =
    .next (s.withCore (s.setMem (s.mem.writeBytes s.base (s.firstRegs (x.val + 1)))).advance) :=
  (execStRegs_eq x s).trans (if_pos h)

theorem exec_ldRegs_of_le (h : s.base + x.val ≤ 0xFFF) : exec (.ldRegs x) s =
    .next (s.withCore (s.writeFirstRegs (s.mem.readBytes s.base (x.val + 1))).advance) :=
  (execLdRegs_eq x s).trans (if_pos h)

end stores

/-- Settles O38: in range `Fx33` stores the three digits at `I` (`exec_ldB_of_le`), which read back
(`read_writeBytes_inside`); past the end it faults (`execLdB_eq_fault`). -/
theorem storeDecimalDigits : Obligations.StoreDecimalDigits := by
  intro x s hs
  refine ⟨fun h => ?_, fun h => execLdB_eq_fault.2 ⟨rfl, h⟩⟩
  have hexec := exec_ldB_of_le (x := x) h
  have hr : s.base + (bcdDigits (s.readV x)).length ≤ Config.memSize := by
    simp only [length_bcdDigits, Config.memSize]
    omega
  have hdigit : ∀ k (hk : k < 3), (s.mem.writeBytes s.base (bcdDigits (s.readV x))).read (s.base + k) =
      (bcdDigits (s.readV x))[k] := fun k hk => Memory.read_writeBytes_inside hs hr hk
  have hv := (s.readV x).isLt
  refine ⟨_, hexec, ?_, ?_, ?_, fun b hb => Memory.read_writeBytes_outside hs hr hb, unchanged_of_exec hexec rfl⟩
  · refine (congrArg BitVec.toNat (hdigit 0 (by omega))).trans (Nat.mod_eq_of_lt (by omega))
  · refine (congrArg BitVec.toNat (hdigit 1 (by omega))).trans (Nat.mod_eq_of_lt (by omega))
  · refine (congrArg BitVec.toNat (hdigit 2 (by omega))).trans (Nat.mod_eq_of_lt (by omega))

/-- The bytes `Fx55` stores are in memory. -/
theorem base_add_length_firstRegs {s : State} {x : Reg} (h : s.base + x.val ≤ 0xFFF) :
    s.base + (s.firstRegs (x.val + 1)).length ≤ Config.memSize := by
  simp only [CoreState.length_firstRegs, Config.memSize]
  omega

/-- After `Fx55` the byte at `I + r` is `V[r]` (R135). -/
theorem read_of_stRegs {x r : Reg} {s t : State} (hs : s.mem.wf) (h : exec (.stRegs x) s = .next t) (hr : r ≤ x) :
    t.mem.read (s.base + r.val) = s.readV r := by
  obtain ⟨hbase, rfl⟩ := execStRegs_next h
  have hrx : r.val < (s.firstRegs (x.val + 1)).length := by
    have : r.val ≤ x.val := hr
    rw [CoreState.length_firstRegs]
    omega
  exact (Memory.read_writeBytes_inside hs (base_add_length_firstRegs hbase) hrx).trans
    (CoreState.getElem_firstRegs _ _ _ _)

/-- Settles O39: in range `Fx55` stores the registers at `I` (`read_of_stRegs`) and no other byte; past the end it faults
(`execStRegs_eq_fault`). -/
theorem storeRegisters : Obligations.StoreRegisters := by
  intro x s hs
  refine ⟨fun h => ?_, fun h => execStRegs_eq_fault.2 ⟨rfl, h⟩⟩
  have hexec := exec_stRegs_of_le h
  refine ⟨_, hexec, fun r hr => read_of_stRegs hs hexec hr, fun b hb => ?_, unchanged_of_exec hexec rfl⟩
  refine Memory.read_writeBytes_outside hs (base_add_length_firstRegs h) ?_
  rwa [CoreState.length_firstRegs]

/-- After `Fx65` the register `V[r]` up to `V[x]` holds the byte at `I + r`, the others what they held (R136). -/
theorem readV_of_ldRegs {x : Reg} {s t : State} (h : exec (.ldRegs x) s = .next t) (r : Reg) :
    t.readV r = if r ≤ x then s.mem.read (s.base + r.val) else s.readV r := by
  obtain ⟨-, rfl⟩ := execLdRegs_next h
  refine (CoreState.readV_writeFirstRegs _ _ r).trans ?_
  simp only [Memory.length_readBytes, Memory.getElem_readBytes, Nat.lt_succ_iff, dite_eq_ite]
  rfl

/-- Settles O40: in range `Fx65` loads the registers from `I` (`readV_of_ldRegs`); past the end it faults
(`execLdRegs_eq_fault`). -/
theorem loadRegisters : Obligations.LoadRegisters := by
  intro x s
  refine ⟨fun h => ?_, fun h => execLdRegs_eq_fault.2 ⟨rfl, h⟩⟩
  have hexec := exec_ldRegs_of_le h
  exact ⟨_, hexec, fun r hr => (readV_of_ldRegs hexec r).trans (if_pos hr),
    fun r hr => (readV_of_ldRegs hexec r).trans (if_neg (not_le.2 hr)), unchanged_of_exec hexec rfl⟩

/-- Settles O41: `Fx65` loads from `I + r` (`readV_of_ldRegs`) what `Fx55` stored there (`read_of_stRegs`), in range because
the store was. -/
theorem storeThenLoadRestoresRegisters : Obligations.StoreThenLoadRestoresRegisters := by
  intro x s t u hs h hmem hI
  obtain ⟨hr, -⟩ := execStRegs_next h
  have hIs : t.I = s.I := (exec_unchanged h).1 .I (by simp [mayWrite])
  have hbase : u.base = s.base := congrArg BitVec.toNat (hI.trans hIs)
  have hexec := exec_ldRegs_of_le (s := u) (x := x) (hbase ▸ hr)
  refine ⟨_, hexec, fun r hrx => ?_⟩
  rw [readV_of_ldRegs hexec r, if_pos hrx, hmem, hbase, read_of_stRegs hs h hrx]

/-- Settles O42: the next fetch reads two stored bytes (`read_of_stRegs`), within range because the store was. -/
theorem storeIsSeenByTheNextFetch : Obligations.StoreIsSeenByTheNextFetch := by
  intro x r s t hs h hrx hpc
  obtain ⟨hr, -⟩ := execStRegs_next h
  have hlt : r.val < x.val := hrx
  have hsucc : (r + 1).val = r.val + 1 := Fin.val_add_one_of_lt' (by omega)
  have hhi := read_of_stRegs hs h (le_of_lt hrx)
  have hlo := read_of_stRegs (r := r + 1) hs h (Fin.le_def.2 (by omega))
  rw [CoreState.fetch_ok (by omega), hpc, hhi, ← hlo, hsucc, Nat.add_assoc]

/-! # Keypad and sound timer (R150 to R156) -/

/-- Settles O48: both forms are a skip (`withCore_skipIf_spec`) on the key of the low four bits of `V[x]`. -/
theorem keySkips : Obligations.KeySkips := by
  intro x s k hk
  have hkey : keyIndex (s.readV x) = k := Fin.ext hk.symm
  have hdown : s.keyDown (keyIndex (s.readV x)) = true ↔ s.keyDown k = true := by rw [hkey]
  have hup : (!s.keyDown (keyIndex (s.readV x))) = true ↔ ¬ s.keyDown k = true := by simp [hkey]
  refine ⟨⟨_, rfl, withCore_skipIf_spec s hdown⟩, _, rfl, ?_⟩
  rw [← ite_not]
  exact withCore_skipIf_spec s hup

/-- Settles O49: the scan finds the least key down (`firstKeyDown_eq_some`), whose index is written to `V[x]`, or none
(`firstKeyDown_eq_none`), and then nothing happens. -/
theorem waitForKeyTakesTheLowest : Obligations.WaitForKeyTakesTheLowest := by
  intro x s
  refine ⟨fun k hk hleast => ?_, fun hnone => execLdVxK_of_none (CoreState.firstKeyDown_eq_none.2 hnone)⟩
  have hexec : exec (.ldVxK x) s = _ := execLdVxK_of_some (CoreState.firstKeyDown_eq_some.2 ⟨hk, hleast⟩)
  obtain ⟨hx, hframe⟩ := withCore_writeV_advance_spec s x (BitVec.ofNat 8 k.val)
  have hk16 := k.isLt
  exact ⟨_, hexec, (congrArg BitVec.toNat hx).trans (Nat.mod_eq_of_lt (by omega)), CoreState.toNat_advance_pc _, hframe⟩

/-- Settles O51: `Fx18` sets the sound timer, which is the `sound` of its step for every input (`opStep_of_exec_next`). -/
theorem soundTimerWrite : Obligations.SoundTimerWrite := by
  intro x s
  refine ⟨⟨_, rfl, rfl, CoreState.toNat_advance_pc _, unchanged_of_exec (i := .ldStVx x) rfl rfl⟩, fun hn rnd => ?_⟩
  exact ⟨_, _, opStep_of_exec_next hn rfl rfl rnd, rfl⟩

end Sys2Proof.Machine

namespace Sys2Proof.Machine

/-! # Display: drawing a sprite (R142 to R145) -/

section draw
variable (s : State) (x y : Reg) {n : Nat}

/-- The core after `Dxyn` has read its sprite bytes. -/
def drawn (n : Nat) : CoreState :=
  drawSprite Config.spriteEdge x y (s.mem.readBytes s.base n) s.toCoreState

theorem exec_drw_of_le (h : n = 0 ∨ s.base + n - 1 ≤ 0xFFF) : exec (.drw x y n) s = .next (s.withCore (drawn s x y n)) :=
  (execDrw_eq x y n s).trans (if_pos h)

/-- A pixel is toggled when the sprite covers it, and kept otherwise. -/
theorem pixel_drawn (hn : n ≤ 32) (px : Fin 64) (py : Fin 32) :
    (spriteCovers Config.spriteEdge s x y n px py → (drawn s x y n).FB.pixel px py = !s.FB.pixel px py) ∧
      (¬ spriteCovers Config.spriteEdge s x y n px py → (drawn s x y n).FB.pixel px py = s.FB.pixel px py) := by
  have hlen : (s.mem.readBytes s.base n).length ≤ 32 := by rwa [Memory.length_readBytes]
  have hpixel := (drawRows_spec ⟨s.FB, false⟩ Config.spriteEdge (s.readV x).toNat (s.readV y).toNat hlen).1 px py
  rw [spriteCovers_iff]
  refine ⟨fun hcov => hpixel.trans ?_, fun hcov => hpixel.trans ?_⟩
  · rw [decide_eq_true hcov, Bool.xor_true]
  · rw [decide_eq_false hcov, Bool.xor_false]

/-- VF after a draw is a flag, set exactly when the sprite covers a set pixel. -/
theorem readV_VF_drawn (hn : n ≤ 32) : ∃ b : Bool, (drawn s x y n).readV VF = flagByte b ∧
    (b = true ↔ ∃ px py, spriteCovers Config.spriteEdge s x y n px py ∧ s.FB.pixel px py = true) := by
  have hlen : (s.mem.readBytes s.base n).length ≤ 32 := by rwa [Memory.length_readBytes]
  have hcol := (drawRows_spec ⟨s.FB, false⟩ Config.spriteEdge (s.readV x).toNat (s.readV y).toNat hlen).2
  refine ⟨_, (readV_drawSprite _ _ _ _ _ VF).trans (if_pos rfl), hcol.trans ?_⟩
  simp only [Bool.false_eq_true, false_or, spriteCovers_iff]

end draw

/-- Settles O44: in range `Dxyn` answers the drawn core (`exec_drw_of_le`); its pixels are `pixel_drawn`, its flag
`readV_VF_drawn`. -/
theorem drawTogglesTheSpritePixels : Obligations.DrawTogglesTheSpritePixels := by
  intro x y n s hn hr
  have hexec := exec_drw_of_le s x y hr
  obtain ⟨b, hVF, hb⟩ := readV_VF_drawn s x y (n := n) (by omega)
  refine ⟨_, hexec, pixel_drawn s x y (by omega), fun hset => ?_, fun hset => ?_, rfl, fun r hne => ?_,
    unchanged_of_exec hexec rfl⟩
  · exact hVF.trans (congrArg flagByte (hb.2 hset))
  · exact hVF.trans (congrArg flagByte (Bool.eq_false_of_not_eq_true (mt hb.1 hset)))
  · exact (readV_drawSprite _ _ _ _ _ r).trans (if_neg (List.ne_of_not_mem_cons hne))

/-- A sprite without rows covers no pixel. -/
theorem not_spriteCovers_zero (edge : Config.SpriteEdge) (s : State) (x y : Reg) (px : Fin 64) (py : Fin 32) :
    ¬ spriteCovers edge s x y 0 px py := by
  rintro ⟨r, c, hr, -⟩
  exact Nat.not_lt_zero r hr

/-- Settles O45: past the end `Dxyn` faults (`execDrw_eq_fault`); with no row it draws (`drawTogglesTheSpritePixels`) a sprite
that covers nothing (`not_spriteCovers_zero`). -/
theorem drawRangeCheck : Obligations.DrawRangeCheck := by
  intro x y s
  refine ⟨fun n hpos hr => execDrw_eq_fault.2 ⟨rfl, hpos, hr⟩, ?_⟩
  obtain ⟨t, hexec, hpixel, -, hclear, hdirty, hkept, hframe, hdraws⟩ :=
    drawTogglesTheSpritePixels x y 0 s (Nat.zero_le _) (.inl rfl)
  have hnone := not_spriteCovers_zero Config.spriteEdge s x y
  have hFB : ∀ px py, t.FB.pixel px py = s.FB.pixel px py := fun px py => (hpixel px py).2 (hnone px py)
  refine ⟨t, hexec, hFB, hclear fun ⟨px, py, hcov, _⟩ => hnone px py hcov, hdirty, hkept, ?_, hdraws⟩
  exact coreUnchanged_of_agree (f := .FB) (coreUnchanged_mono hframe (by simp)) hFB

/-- Which pixels a sprite covers depends on memory, `I` and the two coordinate registers alone. -/
theorem spriteCovers_congr {s s' : State} {x y : Reg} (hmem : ∀ a, s'.mem.read a = s.mem.read a) (hI : s'.I = s.I)
    (hx : s'.readV x = s.readV x) (hy : s'.readV y = s.readV y) (edge : Config.SpriteEdge) (n : Nat) (px : Fin 64)
    (py : Fin 32) : spriteCovers edge s' x y n px py ↔ spriteCovers edge s x y n px py := by
  simp only [spriteCovers, CoreState.base, hmem, hI, hx, hy]

/-- Settles O46: both draws toggle the same pixels (`drawTogglesTheSpritePixels`, `spriteCovers_congr`), so each ends as it
was; over a clear region the first draw meets no set pixel and the second meets those the first one set. -/
theorem drawTwiceRestoresTheFramebuffer : Obligations.DrawTwiceRestoresTheFramebuffer := by
  intro x y n s t s' hn h hmem hI hx hy hFB
  obtain ⟨hr, -⟩ := execDrw_next h
  have hr' : n = 0 ∨ s'.base + n - 1 ≤ 0xFFF := by rwa [CoreState.base, hI]
  have hcov := spriteCovers_congr hmem hI hx hy Config.spriteEdge n
  obtain ⟨t', ht', hpixel, -, hclear, -⟩ := drawTogglesTheSpritePixels x y n s hn hr
  obtain rfl : t' = t := Host.Outcome.next.inj (ht'.symm.trans h)
  obtain ⟨u, hu, hpixel', hset', -⟩ := drawTogglesTheSpritePixels x y n s' hn hr'
  refine ⟨u, hu, fun px py => ?_, fun ⟨px, py, hc⟩ hregion => ⟨hclear ?_, hset' ?_⟩⟩
  · by_cases hc : spriteCovers Config.spriteEdge s x y n px py
    · rw [(hpixel' px py).1 ((hcov px py).2 hc), hFB, (hpixel px py).1 hc, Bool.not_not]
    · rw [(hpixel' px py).2 (mt (hcov px py).1 hc), hFB, (hpixel px py).2 hc]
  · rintro ⟨qx, qy, hq, hset⟩
    rw [hregion qx qy hq] at hset
    cases hset
  · refine ⟨px, py, (hcov px py).2 hc, ?_⟩
    rw [hFB, (hpixel px py).1 hc, hregion px py hc]
    rfl

end Sys2Proof.Machine
